-- ==== Sys2Proof/Word.lean ====
section
/-! DEFINITION. The three word sizes of the hardware. Bit 0 is the least significant bit and every
value is unsigned (spec/00_scope.md R8). -/

namespace Sys2Proof

/-- A control register and the latch `tmp`: `CR_W` = 8 bits (R6, R16). -/
abbrev Byte := BitVec 8

/-- Counter, top and compare registers and the `val` operand: `DATA_W` = 16 bits (R6). -/
abbrev Word16 := BitVec 16

/-- A host command word: `CMD_W` = 32 bits (R6, R48). -/
abbrev CmdWord := BitVec 32

end Sys2Proof
end

