-- ==== Sys2Proof/Config.lean ====
section
/-! DEFINITION. The register identifiers and the implementation parameters of spec/00_scope.md R6:
the field positions (`Config.layout`), the address map (`AddrMap`, OPEN) and the register contents
after reset (`Config.reset…`, OPEN). `ENV`, the last OPEN parameter, is not here: the other agents'
transactions are turns held in the state, so a statement about every state is a statement about
every `ENV` (log 3). -/

namespace Sys2Proof

/-- The six peripheral registers (R17, R32). Identifiers 6 and 7 name no register. -/
inductive RegId where
  | cnt | cra | crb | topr | cmpa | cmpb
deriving DecidableEq, Repr

/-- The register identifier on the register interface, 0 to 5 (R17). -/
def RegId.number : RegId → BitVec 3
  | .cnt => 0 | .cra => 1 | .crb => 2 | .topr => 3 | .cmpa => 4 | .cmpb => 5

/-- The width of a register in bits (R17, R35). -/
def RegId.width : RegId → Nat
  | .cra | .crb => 8
  | .cnt | .topr | .cmpa | .cmpb => 16

/-- All six registers, in the order of their identifiers. -/
def RegId.all : List RegId := [.cnt, .cra, .crb, .topr, .cmpa, .cmpb]

/-- The two control registers, the only ones the TMC reads (R33). -/
inductive CtlReg where
  | cra | crb
deriving DecidableEq, Repr

def CtlReg.id : CtlReg → RegId
  | .cra => .cra
  | .crb => .crb

/-- The position of a bit, or of the least significant bit of a field: a control register and a bit
number in it. -/
structure BitPos where
  reg : CtlReg
  bit : Nat
deriving DecidableEq, Repr

/-- The position parameters of R6: the three mode-select bits, the two output fields (two bits each)
and the prescaler field (three bits), each field by its least significant bit. -/
structure Layout where
  low  : BitPos
  mid  : BitPos
  high : BitPos
  coma : BitPos
  comb : BitPos
  cs   : BitPos
deriving DecidableEq, Repr

/-- The bits a field of `n` bits at `p` occupies. -/
def BitPos.span (p : BitPos) : Nat → List BitPos
  | 0 => []
  | n + 1 => p :: BitPos.span { p with bit := p.bit + 1 } n

/-- Every bit that belongs to a field of the layout. -/
def Layout.bits (l : Layout) : List BitPos :=
  [l.low, l.mid, l.high] ++ l.coma.span 2 ++ l.comb.span 2 ++ l.cs.span 3

/-- The constraints of R7: all bits lie inside the 8-bit registers and are pairwise distinct, and the
mode-select bits do not all lie in one register. That the output fields lie in CRA and the prescaler
field in CRB is what R65, R70 and R71 presuppose when they merge into those two (DEDUCED, log 7). -/
abbrev Layout.Ok (l : Layout) : Prop :=
  (∀ p ∈ l.bits, p.bit < 8) ∧ l.bits.Nodup
    ∧ ¬ (l.low.reg = l.mid.reg ∧ l.mid.reg = l.high.reg)
    ∧ l.coma.reg = .cra ∧ l.comb.reg = .cra ∧ l.cs.reg = .crb

/-- The field positions this model runs with: the default positions of R6. -/
def Config.layout : Layout where
  low  := ⟨.cra, 0⟩
  mid  := ⟨.cra, 1⟩
  high := ⟨.crb, 4⟩
  coma := ⟨.cra, 6⟩
  comb := ⟨.cra, 4⟩
  cs   := ⟨.crb, 0⟩

/-- `ADDR`: an injective map from register identifiers to platform addresses (R6, R32). It is OPEN:
no value of it is chosen anywhere, and what needs one takes it as an argument (log 8). -/
structure AddrMap where
  addr : RegId → Nat
  injective : ∀ r q, addr r = addr q → r = q

/-! `RESET_REGS` (R29): the spec leaves the six registers unspecified after reset. `State.resetWith`
takes any contents; `State.reset` uses these. DESIGN CHOICE, unsafe (log 1). -/

def Config.resetCnt  : Word16 := 0
def Config.resetCra  : Byte := 0
def Config.resetCrb  : Byte := 0
def Config.resetTopr : Word16 := 0
def Config.resetCmpa : Word16 := 0
def Config.resetCmpb : Word16 := 0

end Sys2Proof
end

