-- ==== Sys2Proof/Syntax.lean ====
section
/-! DEFINITION. The commands as syntax: the enumerations of spec/30_encoding.md R50 to R53 and the
one inductive of instructions, a constructor per row of spec/opcode_table.json (R47: five operations,
fifteen variants). -/

namespace Sys2Proof

/-- The prescaler choices, in the order of their codes 0 to 7 (R50). -/
inductive Prescaler where
  | stop | div1 | div8 | div64 | div256 | div1024 | extFall | extRise
deriving DecidableEq, Repr

/-- The output modes of a channel, in the order of their codes 0 to 3 (R53). -/
inductive OutMode where
  | disc | toggle | nonInv | inv
deriving DecidableEq, Repr

/-- The sub-modes of `INIT_FAST`, in the order of their codes 0 to 4 (R51). -/
inductive FastSub where
  | bit8 | bit9 | bit10 | topCmpa | topTopr
deriving DecidableEq, Repr

/-- The sub-modes of `INIT_PC`, in the order of their codes 0 to 6 (R52). -/
inductive PcSub where
  | bit8 | bit9 | bit10 | topCmpa | topTopr | fcTopCmpa | fcTopTopr
deriving DecidableEq, Repr

/-- A family together with one of its own sub-modes: the pair `(fam, sm)` of R66 and R67. A Fast-PWM
frequency-correct sub-mode does not exist (R84), and cannot be written here. -/
inductive InitMode where
  | fast (sm : FastSub)
  | pc (sm : PcSub)
deriving DecidableEq, Repr

/-- A command (R47), one constructor per variant. The operands of the INIT variants are the prescaler,
the output modes of channel A and channel B, and the top value, in the order of R61. -/
inductive Instr where
  | initFastBit8 (ps : Prescaler) (oa ob : OutMode) (val : Word16)
  | initFastBit9 (ps : Prescaler) (oa ob : OutMode) (val : Word16)
  | initFastBit10 (ps : Prescaler) (oa ob : OutMode) (val : Word16)
  | initFastTopCmpa (ps : Prescaler) (oa ob : OutMode) (val : Word16)
  | initFastTopTopr (ps : Prescaler) (oa ob : OutMode) (val : Word16)
  | initPcBit8 (ps : Prescaler) (oa ob : OutMode) (val : Word16)
  | initPcBit9 (ps : Prescaler) (oa ob : OutMode) (val : Word16)
  | initPcBit10 (ps : Prescaler) (oa ob : OutMode) (val : Word16)
  | initPcTopCmpa (ps : Prescaler) (oa ob : OutMode) (val : Word16)
  | initPcTopTopr (ps : Prescaler) (oa ob : OutMode) (val : Word16)
  | initPcFcTopCmpa (ps : Prescaler) (oa ob : OutMode) (val : Word16)
  | initPcFcTopTopr (ps : Prescaler) (oa ob : OutMode) (val : Word16)
  | setCmpa (val : Word16)
  | setCmpb (val : Word16)
  | setTop (val : Word16)
deriving DecidableEq, Repr

/-- `INIT_FAST ps, sm, oa, ob, val` (R84) as its variant. -/
def Instr.initFast (sm : FastSub) (ps : Prescaler) (oa ob : OutMode) (val : Word16) : Instr :=
  match sm with
  | .bit8 => .initFastBit8 ps oa ob val
  | .bit9 => .initFastBit9 ps oa ob val
  | .bit10 => .initFastBit10 ps oa ob val
  | .topCmpa => .initFastTopCmpa ps oa ob val
  | .topTopr => .initFastTopTopr ps oa ob val

/-- `INIT_PC ps, sm, oa, ob, val` (R90) as its variant. -/
def Instr.initPc (sm : PcSub) (ps : Prescaler) (oa ob : OutMode) (val : Word16) : Instr :=
  match sm with
  | .bit8 => .initPcBit8 ps oa ob val
  | .bit9 => .initPcBit9 ps oa ob val
  | .bit10 => .initPcBit10 ps oa ob val
  | .topCmpa => .initPcTopCmpa ps oa ob val
  | .topTopr => .initPcTopTopr ps oa ob val
  | .fcTopCmpa => .initPcFcTopCmpa ps oa ob val
  | .fcTopTopr => .initPcFcTopTopr ps oa ob val

/-- An initialisation of either family, `INIT fam, ps, sm, oa, ob, val` in the words of R65. -/
def Instr.init (m : InitMode) (ps : Prescaler) (oa ob : OutMode) (val : Word16) : Instr :=
  match m with
  | .fast sm => .initFast sm ps oa ob val
  | .pc sm => .initPc sm ps oa ob val

end Sys2Proof
end

