-- ==== Sys2Proof/WellFormed.lean ====
section
/-! DEFINITION. The raw fields of a command word (spec/30_encoding.md R48) and when they are well
formed: one check for each clause (a) to (e) of R56. An `Instr` is well formed by its type, since its
operands are members of the enumerations; ill-formed terms exist only among raw fields, and the
decoder turns fields that pass every check, and no others, into an `Instr`. -/

namespace Sys2Proof

/-- The seven fields of a command word (R48). -/
structure CmdFields where
  rsv : BitVec 3
  op  : BitVec 3
  ps  : BitVec 3
  sm  : BitVec 3
  oa  : BitVec 2
  ob  : BitVec 2
  val : Word16
deriving DecidableEq, Repr

/-- Why a command word is reserved: the clauses of R56, in its order. -/
inductive Invalid where
  /-- (a): `rsv` is not 0. -/
  | reservedBitsSet
  /-- (b): `op` is 5, 6 or 7. -/
  | operationReserved
  /-- (c): `op` is 0 and `sm` is 5, 6 or 7. -/
  | fastSubModeReserved
  /-- (d): `op` is 1 and `sm` is 7. -/
  | pcSubModeReserved
  /-- (e): `op` is 2, 3 or 4 and bits 25:16 are not all zero. -/
  | loadOperandNotZero
deriving DecidableEq, Repr

/-- Not clause (a) of R56. -/
def CmdFields.reservedBitsClear (f : CmdFields) : Bool := f.rsv == 0

/-- Not clause (b) of R56. -/
def CmdFields.operationDefined (f : CmdFields) : Bool := decide (f.op.toNat ≤ 4)

/-- Not clause (c) of R56. -/
def CmdFields.fastSubModeDefined (f : CmdFields) : Bool := f.op != 0 || decide (f.sm.toNat ≤ 4)

/-- Not clause (d) of R56. -/
def CmdFields.pcSubModeDefined (f : CmdFields) : Bool := f.op != 1 || decide (f.sm.toNat ≤ 6)

/-- Not clause (e) of R56: a load has nothing in `ps`, `sm`, `oa`, `ob` (R55). -/
def CmdFields.loadOperandsZero (f : CmdFields) : Bool :=
  !(f.op == 2 || f.op == 3 || f.op == 4) || (f.ps == 0 && f.sm == 0 && f.oa == 0 && f.ob == 0)

/-- The fields of a valid command word (R56). -/
def CmdFields.wellFormed (f : CmdFields) : Bool :=
  f.reservedBitsClear && f.operationDefined && f.fastSubModeDefined && f.pcSubModeDefined
    && f.loadOperandsZero

end Sys2Proof
end

