-- ==== Sys2Proof/Decode.lean ====
section
/-! DEFINITION. The codes of the enumerations (spec/30_encoding.md R49 to R53), the decoder (R57),
total on 32-bit words and rejecting by name, and the encoder (R59). A command word is one 32-bit
number, so there is no byte order (R36). -/

namespace Sys2Proof

/-- R50. -/
def Prescaler.code : Prescaler → BitVec 3
  | .stop => 0 | .div1 => 1 | .div8 => 2 | .div64 => 3
  | .div256 => 4 | .div1024 => 5 | .extFall => 6 | .extRise => 7

/-- R50: all eight codes are used. -/
def Prescaler.ofCode (c : BitVec 3) : Prescaler :=
  match c.toNat with
  | 0 => .stop | 1 => .div1 | 2 => .div8 | 3 => .div64
  | 4 => .div256 | 5 => .div1024 | 6 => .extFall | _ => .extRise

/-- R53: the ordinal, which is also the value of the register field. -/
def OutMode.code : OutMode → BitVec 2
  | .disc => 0 | .toggle => 1 | .nonInv => 2 | .inv => 3

/-- R53: all four codes are used. -/
def OutMode.ofCode (c : BitVec 2) : OutMode :=
  match c.toNat with
  | 0 => .disc | 1 => .toggle | 2 => .nonInv | _ => .inv

/-- R51. -/
def FastSub.code : FastSub → BitVec 3
  | .bit8 => 0 | .bit9 => 1 | .bit10 => 2 | .topCmpa => 3 | .topTopr => 4

/-- R51: codes 5, 6 and 7 are reserved. -/
def FastSub.ofCode? (c : BitVec 3) : Option FastSub :=
  match c.toNat with
  | 0 => some .bit8 | 1 => some .bit9 | 2 => some .bit10
  | 3 => some .topCmpa | 4 => some .topTopr | _ => none

/-- R52. -/
def PcSub.code : PcSub → BitVec 3
  | .bit8 => 0 | .bit9 => 1 | .bit10 => 2 | .topCmpa => 3 | .topTopr => 4
  | .fcTopCmpa => 5 | .fcTopTopr => 6

/-- R52: code 7 is reserved. -/
def PcSub.ofCode? (c : BitVec 3) : Option PcSub :=
  match c.toNat with
  | 0 => some .bit8 | 1 => some .bit9 | 2 => some .bit10
  | 3 => some .topCmpa | 4 => some .topTopr
  | 5 => some .fcTopCmpa | 6 => some .fcTopTopr | _ => none

/-- The fields of a command word at the bit positions of R48. -/
def fieldsOf (w : CmdWord) : CmdFields where
  rsv := w.extractLsb' 29 3
  op  := w.extractLsb' 26 3
  ps  := w.extractLsb' 23 3
  sm  := w.extractLsb' 20 3
  oa  := w.extractLsb' 18 2
  ob  := w.extractLsb' 16 2
  val := w.extractLsb' 0 16

/-- The command word with these fields, each at its position of R48 (R59). -/
def wordOf (f : CmdFields) : CmdWord :=
  f.rsv.setWidth 32 <<< 29 ||| f.op.setWidth 32 <<< 26 ||| f.ps.setWidth 32 <<< 23
    ||| f.sm.setWidth 32 <<< 20 ||| f.oa.setWidth 32 <<< 18 ||| f.ob.setWidth 32 <<< 16
    ||| f.val.setWidth 32

/-- The verdict of the decoder: a command, or `invalid` (R57), here with the clause of R56. -/
inductive Decoded where
  | command (i : Instr)
  | invalid (why : Invalid)
deriving DecidableEq, Repr

/-- A load whose `ps`, `sm`, `oa` and `ob` fields are zero, else clause (e) of R56. -/
def loadOf (f : CmdFields) (i : Instr) : Decoded :=
  if f.ps = 0 ∧ f.sm = 0 ∧ f.oa = 0 ∧ f.ob = 0 then .command i else .invalid .loadOperandNotZero

/-- The arms of R57 on the fields of a word, in its order. -/
def commandOf (f : CmdFields) : Decoded :=
  if f.rsv ≠ 0 then .invalid .reservedBitsSet
  else if f.op = 0 then
    match FastSub.ofCode? f.sm with
    | some sm => .command
        (.initFast sm (Prescaler.ofCode f.ps) (OutMode.ofCode f.oa) (OutMode.ofCode f.ob) f.val)
    | none => .invalid .fastSubModeReserved
  else if f.op = 1 then
    match PcSub.ofCode? f.sm with
    | some sm => .command
        (.initPc sm (Prescaler.ofCode f.ps) (OutMode.ofCode f.oa) (OutMode.ofCode f.ob) f.val)
    | none => .invalid .pcSubModeReserved
  else if f.op = 2 then loadOf f (.setCmpa f.val)
  else if f.op = 3 then loadOf f (.setCmpb f.val)
  else if f.op = 4 then loadOf f (.setTop f.val)
  else .invalid .operationReserved

/-- `decode` of R57. -/
def decode (w : CmdWord) : Decoded := commandOf (fieldsOf w)

/-- The fields of an initialisation word (R59). -/
def initFields (op sm : BitVec 3) (ps : Prescaler) (oa ob : OutMode) (val : Word16) : CmdFields where
  rsv := 0
  op  := op
  ps  := ps.code
  sm  := sm
  oa  := oa.code
  ob  := ob.code
  val := val

/-- The fields of a load word: bits 25:16 are zero (R55, R59). -/
def loadFields (op : BitVec 3) (val : Word16) : CmdFields where
  rsv := 0
  op  := op
  ps  := 0
  sm  := 0
  oa  := 0
  ob  := 0
  val := val

/-- The fields of a command, with the operation codes of R49. They are the fields `op`, `ps`, `sm`,
`oa`, `ob`, `val` of the command latch (R13). -/
def Instr.fields : Instr → CmdFields
  | .initFastBit8 ps oa ob val => initFields 0 FastSub.bit8.code ps oa ob val
  | .initFastBit9 ps oa ob val => initFields 0 FastSub.bit9.code ps oa ob val
  | .initFastBit10 ps oa ob val => initFields 0 FastSub.bit10.code ps oa ob val
  | .initFastTopCmpa ps oa ob val => initFields 0 FastSub.topCmpa.code ps oa ob val
  | .initFastTopTopr ps oa ob val => initFields 0 FastSub.topTopr.code ps oa ob val
  | .initPcBit8 ps oa ob val => initFields 1 PcSub.bit8.code ps oa ob val
  | .initPcBit9 ps oa ob val => initFields 1 PcSub.bit9.code ps oa ob val
  | .initPcBit10 ps oa ob val => initFields 1 PcSub.bit10.code ps oa ob val
  | .initPcTopCmpa ps oa ob val => initFields 1 PcSub.topCmpa.code ps oa ob val
  | .initPcTopTopr ps oa ob val => initFields 1 PcSub.topTopr.code ps oa ob val
  | .initPcFcTopCmpa ps oa ob val => initFields 1 PcSub.fcTopCmpa.code ps oa ob val
  | .initPcFcTopTopr ps oa ob val => initFields 1 PcSub.fcTopTopr.code ps oa ob val
  | .setCmpa val => loadFields 2 val
  | .setCmpb val => loadFields 3 val
  | .setTop val => loadFields 4 val

/-- `encode` of R59. -/
def encode (i : Instr) : CmdWord := wordOf i.fields

/-- The command the decoder reads from a word given as the opcode table numbers its bits: bit 0 is the
least significant bit of the one 32-bit word (R48), and every bit from `nbits` up is 0. -/
def decodeTableWord (nbits w : Nat) : Option Instr :=
  match decode (BitVec.ofNat 32 (w % 2 ^ nbits)) with
  | .command i => some i
  | .invalid _ => none

end Sys2Proof
end

