-- ==== Sys2Proof/Machine/State.lean ====
section
/-! DEFINITION. The state of the machine as plain data: the tuple `(PRF, busy, cmd, upc, tmp, cfg)`
with `Trace` of spec/10_state.md R12, the signals of the host command port (R48), and the turns the
outside world still takes (R11, R42; log 3). `State.reset` is the machine right after reset (R29,
R116). The hardware has no memory, no general registers, no exception registers (R13, R31, R107). -/

namespace Sys2Proof.Machine

/-- A peripheral register together with a value of exactly its width: what one transaction moves
(R34, R35). -/
inductive RegVal where
  | cnt (v : Word16)
  | cra (v : Byte)
  | crb (v : Byte)
  | topr (v : Word16)
  | cmpa (v : Word16)
  | cmpb (v : Word16)
deriving DecidableEq, Repr

/-- The peripheral register file (R17). -/
structure Prf where
  cnt  : Word16
  cra  : Byte
  crb  : Byte
  topr : Word16
  cmpa : Word16
  cmpb : Word16
deriving DecidableEq, Repr

/-- Who issued a transaction (R40). -/
inductive Agent where
  | tmc | env
deriving DecidableEq, Repr

/-- A transaction as `Trace` records it: `R(r, v)` or `W(r, v)` with its agent (R40). -/
inductive Event where
  | read (who : Agent) (v : RegVal)
  | write (who : Agent) (v : RegVal)
deriving DecidableEq, Repr

/-- The ghost state machine of R26. -/
inductive Cfg where
  | uninit | fast | pc
deriving DecidableEq, Repr

/-- One turn of an agent: a step of the TMC, the host putting a word on its port or taking it away
(R48, R115), or a transaction of ENV (R42). -/
inductive Turn where
  | tmc
  | hostOffer (w : CmdWord)
  | hostWithdraw
  | envRead (r : RegId)
  | envWrite (v : RegVal)
deriving DecidableEq, Repr

/-- The reasons the machine can stop with a fault. The hardware has none (R103, R104). -/
inductive Fault where
  /-- `busy` is 1 and `upc` lies past the end of the running command's micro-program, so neither R73
  nor R74 has its condition. Raised by `sequencer` (every meaning, when the TMC is busy), in states
  that no run from reset reaches (the invariant `TmcInv`). Safe: it claims no next state (log 6). -/
  | sequencerStuck
deriving DecidableEq, Repr

/-- The reasons the model gives no next state. -/
inductive Refusal where
  /-- An instruction that has no meaning yet; raised by no arm of `exec`. Safe. -/
  | notModelled (mnemonic : String)
  /-- An idle TMC is offered a reserved command word: the spec's own `refuse(invalid_command)` (R58,
  R72), with the clause of R56 that the word falls under. Raised by the TMC's turn, never by a
  meaning. Safe: the spec gives such a word no next state. -/
  | invalidCommand (why : Invalid)
deriving DecidableEq, Repr

/-- The machine's state. -/
structure State where
  /-- The six peripheral registers (R17). -/
  prf : Prf
  /-- 1 from the acceptance of a command to its completion (R15). -/
  busy : Bool
  /-- The command latch (R13); `Instr.fields` gives its fields. Meaningless while `busy` is 0. -/
  cmd : Instr
  /-- The micro-sequence index, 0 to 8 (R14). -/
  upc : Nat
  /-- The latch between the two halves of a merge (R16). -/
  tmp : Byte
  /-- Ghost: the last family initialised (R26). -/
  cfg : Cfg
  /-- Every transaction so far, the first one first (R40). -/
  trace : List Event
  /-- The host offers a word (R48). -/
  cmdValid : Bool
  /-- The word on the host port (R48). -/
  cmdWord : CmdWord
  /-- How many times the event `cmd_done` has been raised (R48, R74; log 5). -/
  doneCount : Nat
  /-- The turns the agents take from here on, the next one first; when it is empty the TMC moves
  (R42, R133; log 3). -/
  sched : List Turn
deriving DecidableEq, Repr

/-- The machine after reset with the registers at `p`, that is with `RESET_REGS` = `p` (R29, R116).
The values of `cmd` and `tmp` are DESIGN CHOICES (log 2); no word is on the port (log 4). -/
def State.resetWith (p : Prf) : State where
  prf := p
  busy := false
  cmd := .initFastBit8 .stop .disc .disc 0
  upc := 0
  tmp := 0
  cfg := .uninit
  trace := []
  cmdValid := false
  cmdWord := 0
  doneCount := 0
  sched := []

/-- The register contents after reset that this model names (R29 leaves them open; log 1). -/
def Prf.reset : Prf where
  cnt := Config.resetCnt
  cra := Config.resetCra
  crb := Config.resetCrb
  topr := Config.resetTopr
  cmpa := Config.resetCmpa
  cmpb := Config.resetCmpb

/-- The machine right after reset. -/
def State.reset : State := .resetWith .reset

end Sys2Proof.Machine
end

