-- ==== Sys2Proof/Machine/Flags.lean ====
section
/-! DEFINITION. Status. The hardware has one status bit, `busy`, and one status event, `cmd_done`;
there are no condition codes and no computation of a flag (spec/10_state.md R15). -/

namespace Sys2Proof.Machine

/-- The port signal `cmd_ready` (R48). -/
def cmdReady (s : State) : Bool := !s.busy

/-- A command has been accepted: `busy <- 1` (R72). -/
def setBusy (s : State) : State := { s with busy := true }

/-- A command is complete: `busy <- 0` and `cmd_done` is raised (R74). -/
def raiseDone (s : State) : State := { s with busy := false, doneCount := s.doneCount + 1 }

end Sys2Proof.Machine
end

