-- ==== Sys2Proof/Machine/Ops.lean ====
section
/-! DEFINITION. The register interface (spec/20_memory.md R33, R34), the micro-operations of R65 and
the three step rules of the sequencer: acceptance (R72), micro-step (R73), completion (R74).

There is no exception entry and no return from one: the hardware raises and takes no exception and no
interrupt and has one mode (spec/60_exceptions.md R103, R105, R107, R108, R110). -/

namespace Sys2Proof.Machine

/-! ### Registers -/

/-- The register a value belongs to. -/
def RegVal.reg : RegVal → RegId
  | .cnt _ => .cnt | .cra _ => .cra | .crb _ => .crb
  | .topr _ => .topr | .cmpa _ => .cmpa | .cmpb _ => .cmpb

/-- The whole content of a register (R30). -/
def Prf.read (p : Prf) : RegId → RegVal
  | .cnt => .cnt p.cnt | .cra => .cra p.cra | .crb => .crb p.crb
  | .topr => .topr p.topr | .cmpa => .cmpa p.cmpa | .cmpb => .cmpb p.cmpb

/-- The whole content of one register replaced, nothing else changed (R30, R34). -/
def Prf.write (p : Prf) : RegVal → Prf
  | .cnt v => { p with cnt := v }
  | .cra v => { p with cra := v }
  | .crb v => { p with crb := v }
  | .topr v => { p with topr := v }
  | .cmpa v => { p with cmpa := v }
  | .cmpb v => { p with cmpb := v }

/-- The content of a control register. -/
def Prf.ctl (p : Prf) : CtlReg → Byte
  | .cra => p.cra
  | .crb => p.crb

/-- A control register with a value. -/
def ctlVal : CtlReg → Byte → RegVal
  | .cra, v => .cra v
  | .crb, v => .crb v

/-- The register an address selects on a platform bus bound by `ADDR` (R32). -/
def busSelect (a : AddrMap) (address : Nat) : Option RegId :=
  RegId.all.find? fun r => a.addr r == address

/-! ### Transactions -/

/-- `RegRead` (R33): the value returned is `s.prf.read r`; the state changes only by the event. -/
def regRead (who : Agent) (r : RegId) (s : State) : State :=
  { s with trace := s.trace ++ [.read who (s.prf.read r)] }

/-- `RegWrite` (R34). -/
def regWrite (who : Agent) (v : RegVal) (s : State) : State :=
  { s with prf := s.prf.write v, trace := s.trace ++ [.write who v] }

/-! ### Micro-operations and the sequencer -/

/-- The micro-operations of R65. -/
inductive MicroOp where
  /-- `W(r, v)`: write `v` to register `r`. -/
  | w (v : RegVal)
  /-- `R(r)`: read register `r` into `tmp`. -/
  | r (c : CtlReg)
  /-- `WOR(r, m)`: write `tmp | m` to register `r`. -/
  | wor (c : CtlReg) (m : Byte)
deriving DecidableEq, Repr

/-- `tmp <- RegRead(c)` (R73). -/
def latchRead (c : CtlReg) (s : State) : State :=
  { regRead .tmc c.id s with tmp := s.prf.ctl c }

/-- The one transaction a micro-operation issues (R73). -/
def microOp (m : MicroOp) (s : State) : State :=
  match m with
  | .w v => regWrite .tmc v s
  | .r c => latchRead c s
  | .wor c k => regWrite .tmc (ctlVal c (s.tmp ||| k)) s

/-- `upc <- upc + 1` (R73). -/
def advance (s : State) : State := { s with upc := s.upc + 1 }

/-- The acceptance step (R72): the command goes into the latch and no transaction is issued. The
offer is taken off the port, so that one offer is one command (DESIGN CHOICE, log 4). -/
def accept (i : Instr) (s : State) : State :=
  setBusy { s with cmd := i, upc := 0, cmdValid := false }

/-- The micro-step (R73). -/
def microStep (m : MicroOp) (s : State) : State := advance (microOp m s)

/-- The completion step (R74); `family` is the value `cfg` takes, if the command is an
initialisation. -/
def complete (family : Option Cfg) (s : State) : State :=
  raiseDone { s with cfg := family.getD s.cfg }

/-- The next step of the TMC with the command `i`, whose micro-program is `p`: an idle TMC accepts
it; a busy one, in whose latch it is, issues its next transaction or completes it (R72, R73, R74). -/
def sequencer (i : Instr) (p : List MicroOp) (family : Option Cfg) (s : State) :
    Host.Outcome State Fault Refusal :=
  if s.busy then
    match p[s.upc]? with
    | some m => .next (microStep m s)
    | none => if s.upc = p.length then .next (complete family s) else .fault .sequencerStuck
  else .next (accept i s)

end Sys2Proof.Machine
end

