-- ==== Sys2Proof/Machine/Operands.lean ====
section
/-! DEFINITION. From operands to register values: the resolution encoder (spec/40_init_common.md R66,
R67), the output-pin behaviour mux (R70), the prescaler selector (R71), and the micro-programs they
make up (R65). -/

namespace Sys2Proof.Machine

/-- The three mode-select bits (C1: there are three, not two). -/
structure ModeBits where
  low  : Bool
  mid  : Bool
  high : Bool
deriving DecidableEq, Repr

/-- The Fast-PWM table of R66. -/
def fastModeBits : FastSub → ModeBits
  | .bit8    => ⟨true, false, false⟩
  | .bit9    => ⟨false, true, false⟩
  | .bit10   => ⟨true, true, false⟩
  | .topCmpa => ⟨false, true, true⟩
  | .topTopr => ⟨false, true, true⟩

/-- The Phase-Correct table of R66. -/
def pcModeBits : PcSub → ModeBits
  | .bit8      => ⟨true, false, false⟩
  | .bit9      => ⟨false, true, false⟩
  | .bit10     => ⟨true, true, false⟩
  | .topCmpa   => ⟨false, true, true⟩
  | .topTopr   => ⟨false, true, true⟩
  | .fcTopCmpa => ⟨false, false, true⟩
  | .fcTopTopr => ⟨false, false, true⟩

/-- `MODE(fam, sm)` (R66). The family selects the table (R2(a)) and is written nowhere (R83). -/
def modeBits : InitMode → ModeBits
  | .fast sm => fastModeBits sm
  | .pc sm => pcModeBits sm

/-- The two registers a top value can go to (R67). -/
inductive TopDest where
  | cmpa | topr
deriving DecidableEq, Repr

/-- `DEST(fam, sm)` (R67); `none` for the fixed-resolution sub-modes. -/
def topDest : InitMode → Option TopDest
  | .fast .topCmpa | .pc .topCmpa | .pc .fcTopCmpa => some .cmpa
  | .fast .topTopr | .pc .topTopr | .pc .fcTopTopr => some .topr
  | .fast .bit8 | .fast .bit9 | .fast .bit10 => none
  | .pc .bit8 | .pc .bit9 | .pc .bit10 => none

/-- The register write that carries the top value, unchanged (R67). -/
def TopDest.val (d : TopDest) (v : Word16) : RegVal :=
  match d with
  | .cmpa => .cmpa v
  | .topr => .topr v

/-- One mode-select bit in its position, if that is in control register `c`. -/
def placeBit (p : BitPos) (c : CtlReg) (b : Bool) : Byte :=
  if p.reg = c then (BitVec.ofBool b).setWidth 8 <<< p.bit else 0

/-- `MODE_A` (`c` = CRA) and `MODE_B` (`c` = CRB): the mode-select bits in their positions and 0
elsewhere (R66, R69). -/
def modeReg (l : Layout) (c : CtlReg) (m : ModeBits) : Byte :=
  placeBit l.low c m.low ||| placeBit l.mid c m.mid ||| placeBit l.high c m.high

/-- `OUT_BITS(oa, ob)` (R70). -/
def outBits (l : Layout) (oa ob : OutMode) : Byte :=
  oa.code.setWidth 8 <<< l.coma.bit ||| ob.code.setWidth 8 <<< l.comb.bit

/-- `CS_BITS(ps)` (R71). -/
def csBits (l : Layout) (ps : Prescaler) : Byte := ps.code.setWidth 8 <<< l.cs.bit

/-- Step 2's optional write of the top value (R65, R69). -/
def topProgram (d : Option TopDest) (v : Word16) : List MicroOp :=
  match d with
  | none => []
  | some d => [.w (d.val v)]

/-- `prog(INIT fam, ps, sm, oa, ob, val)` (R65): the four steps of R64. -/
def initProgram (m : InitMode) (ps : Prescaler) (oa ob : OutMode) (v : Word16) : List MicroOp :=
  [.w (.cnt 0)]
    ++ [.w (.cra (modeReg Config.layout .cra (modeBits m))),
        .w (.crb (modeReg Config.layout .crb (modeBits m)))]
    ++ topProgram (topDest m) v
    ++ [.r .cra, .wor .cra (outBits Config.layout oa ob)]
    ++ [.r .crb, .wor .crb (csBits Config.layout ps)]

/-- `prog` of a register load (R65): one write. -/
def loadProgram (v : RegVal) : List MicroOp := [.w v]

/-- `prog(cmd)` (R65). -/
def prog : Instr → List MicroOp
  | .initFastBit8 ps oa ob v => initProgram (.fast .bit8) ps oa ob v
  | .initFastBit9 ps oa ob v => initProgram (.fast .bit9) ps oa ob v
  | .initFastBit10 ps oa ob v => initProgram (.fast .bit10) ps oa ob v
  | .initFastTopCmpa ps oa ob v => initProgram (.fast .topCmpa) ps oa ob v
  | .initFastTopTopr ps oa ob v => initProgram (.fast .topTopr) ps oa ob v
  | .initPcBit8 ps oa ob v => initProgram (.pc .bit8) ps oa ob v
  | .initPcBit9 ps oa ob v => initProgram (.pc .bit9) ps oa ob v
  | .initPcBit10 ps oa ob v => initProgram (.pc .bit10) ps oa ob v
  | .initPcTopCmpa ps oa ob v => initProgram (.pc .topCmpa) ps oa ob v
  | .initPcTopTopr ps oa ob v => initProgram (.pc .topTopr) ps oa ob v
  | .initPcFcTopCmpa ps oa ob v => initProgram (.pc .fcTopCmpa) ps oa ob v
  | .initPcFcTopTopr ps oa ob v => initProgram (.pc .fcTopTopr) ps oa ob v
  | .setCmpa v => loadProgram (.cmpa v)
  | .setCmpb v => loadProgram (.cmpb v)
  | .setTop v => loadProgram (.topr v)

/-- The value `cfg` takes when the command completes; a load leaves it (R74). -/
def family : Instr → Option Cfg
  | .initFastBit8 .. | .initFastBit9 .. | .initFastBit10 .. | .initFastTopCmpa ..
  | .initFastTopTopr .. => some .fast
  | .initPcBit8 .. | .initPcBit9 .. | .initPcBit10 .. | .initPcTopCmpa .. | .initPcTopTopr ..
  | .initPcFcTopCmpa .. | .initPcFcTopTopr .. => some .pc
  | .setCmpa _ | .setCmpb _ | .setTop _ => none

end Sys2Proof.Machine
end

