-- ==== Sys2Proof/Machine/InitFast.lean ====
section
/-! DEFINITION. `INIT_FAST`, initialise Fast-PWM mode: the five sub-modes of spec/41_init_fast.md. A meaning is the
TMC's next step with that command: acceptance, one transaction of its micro-program, or completion.
Operands that do not fit together are executed as they stand (R78). -/

namespace Sys2Proof.Machine

/-- `INIT_FAST.BIT8` (R85): 8-bit resolution. -/
def execInitFastBit8 (ps : Prescaler) (oa ob : OutMode) (val : Word16) (s : State) :
    Host.Outcome State Fault Refusal :=
  sequencer (.initFastBit8 ps oa ob val) (initProgram (.fast .bit8) ps oa ob val) (some .fast) s

/-- `INIT_FAST.BIT9` (R86): 9-bit resolution. -/
def execInitFastBit9 (ps : Prescaler) (oa ob : OutMode) (val : Word16) (s : State) :
    Host.Outcome State Fault Refusal :=
  sequencer (.initFastBit9 ps oa ob val) (initProgram (.fast .bit9) ps oa ob val) (some .fast) s

/-- `INIT_FAST.BIT10` (R87): 10-bit resolution. -/
def execInitFastBit10 (ps : Prescaler) (oa ob : OutMode) (val : Word16) (s : State) :
    Host.Outcome State Fault Refusal :=
  sequencer (.initFastBit10 ps oa ob val) (initProgram (.fast .bit10) ps oa ob val) (some .fast) s

/-- `INIT_FAST.TOP_CMPA` (R88): the top read from CMPA, which step 2 writes. -/
def execInitFastTopCmpa (ps : Prescaler) (oa ob : OutMode) (val : Word16) (s : State) :
    Host.Outcome State Fault Refusal :=
  sequencer (.initFastTopCmpa ps oa ob val) (initProgram (.fast .topCmpa) ps oa ob val) (some .fast) s

/-- `INIT_FAST.TOP_TOPR` (R89): the top read from TOPR, which step 2 writes. -/
def execInitFastTopTopr (ps : Prescaler) (oa ob : OutMode) (val : Word16) (s : State) :
    Host.Outcome State Fault Refusal :=
  sequencer (.initFastTopTopr ps oa ob val) (initProgram (.fast .topTopr) ps oa ob val) (some .fast) s

end Sys2Proof.Machine
end

