-- ==== Sys2Proof/Machine/InitPhaseCorrect.lean ====
section
/-! DEFINITION. `INIT_PC`, initialise Phase-Correct mode: the seven sub-modes of spec/42_init_phase_correct.md. A
meaning is the TMC's next step with that command, as for `INIT_FAST`. -/

namespace Sys2Proof.Machine

/-- `INIT_PC.BIT8` (R91): 8-bit resolution. -/
def execInitPcBit8 (ps : Prescaler) (oa ob : OutMode) (val : Word16) (s : State) :
    Host.Outcome State Fault Refusal :=
  sequencer (.initPcBit8 ps oa ob val) (initProgram (.pc .bit8) ps oa ob val) (some .pc) s

/-- `INIT_PC.BIT9` (R92): 9-bit resolution. -/
def execInitPcBit9 (ps : Prescaler) (oa ob : OutMode) (val : Word16) (s : State) :
    Host.Outcome State Fault Refusal :=
  sequencer (.initPcBit9 ps oa ob val) (initProgram (.pc .bit9) ps oa ob val) (some .pc) s

/-- `INIT_PC.BIT10` (R93): 10-bit resolution. -/
def execInitPcBit10 (ps : Prescaler) (oa ob : OutMode) (val : Word16) (s : State) :
    Host.Outcome State Fault Refusal :=
  sequencer (.initPcBit10 ps oa ob val) (initProgram (.pc .bit10) ps oa ob val) (some .pc) s

/-- `INIT_PC.TOP_CMPA` (R94): the top read from CMPA, which step 2 writes. -/
def execInitPcTopCmpa (ps : Prescaler) (oa ob : OutMode) (val : Word16) (s : State) :
    Host.Outcome State Fault Refusal :=
  sequencer (.initPcTopCmpa ps oa ob val) (initProgram (.pc .topCmpa) ps oa ob val) (some .pc) s

/-- `INIT_PC.TOP_TOPR` (R95): the top read from TOPR, which step 2 writes. -/
def execInitPcTopTopr (ps : Prescaler) (oa ob : OutMode) (val : Word16) (s : State) :
    Host.Outcome State Fault Refusal :=
  sequencer (.initPcTopTopr ps oa ob val) (initProgram (.pc .topTopr) ps oa ob val) (some .pc) s

/-- `INIT_PC.FC_TOP_CMPA` (R96): frequency-correct, the top read from CMPA. -/
def execInitPcFcTopCmpa (ps : Prescaler) (oa ob : OutMode) (val : Word16) (s : State) :
    Host.Outcome State Fault Refusal :=
  sequencer (.initPcFcTopCmpa ps oa ob val) (initProgram (.pc .fcTopCmpa) ps oa ob val) (some .pc) s

/-- `INIT_PC.FC_TOP_TOPR` (R97): frequency-correct, the top read from TOPR. -/
def execInitPcFcTopTopr (ps : Prescaler) (oa ob : OutMode) (val : Word16) (s : State) :
    Host.Outcome State Fault Refusal :=
  sequencer (.initPcFcTopTopr ps oa ob val) (initProgram (.pc .fcTopTopr) ps oa ob val) (some .pc) s

end Sys2Proof.Machine
end

