-- ==== Sys2Proof/Machine/RegisterLoads.lean ====
section
/-! DEFINITION. The register loads `SET_CMPA`, `SET_CMPB`, `SET_TOP` of spec/43_register_loads.md. Each is accepted
in every idle state, before an initialisation too (R98, R124), and leaves `cfg` alone. -/

namespace Sys2Proof.Machine

/-- `SET_CMPA` (R99): one write of CMPA. -/
def execSetCmpa (val : Word16) (s : State) : Host.Outcome State Fault Refusal :=
  sequencer (.setCmpa val) (loadProgram (.cmpa val)) none s

/-- `SET_CMPB` (R100): one write of CMPB. -/
def execSetCmpb (val : Word16) (s : State) : Host.Outcome State Fault Refusal :=
  sequencer (.setCmpb val) (loadProgram (.cmpb val)) none s

/-- `SET_TOP` (R101): one write of TOPR, whatever sub-mode is configured. -/
def execSetTop (val : Word16) (s : State) : Host.Outcome State Fault Refusal :=
  sequencer (.setTop val) (loadProgram (.topr val)) none s

end Sys2Proof.Machine
end

