-- ==== Sys2Proof/Machine/Dispatch.lean ====
section
/-! DEFINITION. The dispatch: one arm per constructor of `Instr`, each one call of its meaning. `exec i s`
is the TMC's next step with the command `i`. -/

namespace Sys2Proof.Machine

def exec (i : Instr) (s : State) : Host.Outcome State Fault Refusal :=
  match i with
  | .initFastBit8 ps oa ob val => Sys2Proof.Machine.execInitFastBit8 ps oa ob val s
  | .initFastBit9 ps oa ob val => Sys2Proof.Machine.execInitFastBit9 ps oa ob val s
  | .initFastBit10 ps oa ob val => Sys2Proof.Machine.execInitFastBit10 ps oa ob val s
  | .initFastTopCmpa ps oa ob val => Sys2Proof.Machine.execInitFastTopCmpa ps oa ob val s
  | .initFastTopTopr ps oa ob val => Sys2Proof.Machine.execInitFastTopTopr ps oa ob val s
  | .initPcBit8 ps oa ob val => Sys2Proof.Machine.execInitPcBit8 ps oa ob val s
  | .initPcBit9 ps oa ob val => Sys2Proof.Machine.execInitPcBit9 ps oa ob val s
  | .initPcBit10 ps oa ob val => Sys2Proof.Machine.execInitPcBit10 ps oa ob val s
  | .initPcTopCmpa ps oa ob val => Sys2Proof.Machine.execInitPcTopCmpa ps oa ob val s
  | .initPcTopTopr ps oa ob val => Sys2Proof.Machine.execInitPcTopTopr ps oa ob val s
  | .initPcFcTopCmpa ps oa ob val => Sys2Proof.Machine.execInitPcFcTopCmpa ps oa ob val s
  | .initPcFcTopTopr ps oa ob val => Sys2Proof.Machine.execInitPcFcTopTopr ps oa ob val s
  | .setCmpa val => Sys2Proof.Machine.execSetCmpa val s
  | .setCmpb val => Sys2Proof.Machine.execSetCmpb val s
  | .setTop val => Sys2Proof.Machine.execSetTop val s

end Sys2Proof.Machine
end

