-- ==== Sys2Proof/Machine/Turns.lean ====
section
/-! DEFINITION. The turns of the three agents (spec/10_state.md R11): what the TMC does when it moves,
what the host does to its port (R48), what ENV does to the registers (R42), how a run starts and when it
is at its end (spec/70_reset_and_hazards.md R133), and how a command word is placed so that the next
step runs it. -/

namespace Sys2Proof.Machine

/-- What the TMC finds when it moves. -/
inductive Fetched where
  /-- Idle, and nothing is offered: the TMC waits (R104, R117). -/
  | nothing
  /-- The command in the latch while busy, or the valid word an idle TMC is offered. -/
  | command (i : Instr)
  /-- An idle TMC is offered a reserved word (R58). -/
  | invalid (why : Invalid)
deriving DecidableEq, Repr

/-- A busy TMC goes on with the latched command and does not look at the port (R45, R130); an idle one
samples the offered word (R72). -/
def fetch (s : State) : Fetched :=
  if s.busy then .command s.cmd
  else if s.cmdValid then
    match decode s.cmdWord with
    | .command i => .command i
    | .invalid why => .invalid why
  else .nothing

/-- A step of the TMC (R72, R73, R74); an idle TMC without an offer stays as it is (R104). -/
def tmcTurn (s : State) : Host.Outcome State Fault Refusal :=
  match fetch s with
  | .nothing => .next s
  | .command i => exec i s
  | .invalid why => .refused (.invalidCommand why)

/-- The host puts a word on the port (R48). It waits there until the TMC is idle (R130). DESIGN CHOICE
(log 12): a later offer replaces a word that still waits; the spec has the host hold its word steady until
acceptance (R130) and is silent on a host that does not (R115). -/
def hostOffer (w : CmdWord) (s : State) : State := { s with cmdValid := true, cmdWord := w }

/-- The host takes its word away (R130). DESIGN CHOICE (log 13): it may take away, or replace, a word that
an idle TMC has not sampled yet, an invalid one too, and the machine goes on; R58 claims nothing of a run
in which an invalid word was offered. -/
def hostWithdraw (s : State) : State := { s with cmdValid := false }

/-- The next agent moves: the first turn of the schedule, and the TMC when there is none (R42, R133;
log 3). An invalid word is refused when an idle TMC moves and samples it, not when the host offers it
(DESIGN CHOICE, log 13). -/
def takeTurn (s : State) : Host.Outcome State Fault Refusal :=
  match s.sched with
  | [] => tmcTurn s
  | .tmc :: rest => tmcTurn { s with sched := rest }
  | .hostOffer w :: rest => .next (hostOffer w { s with sched := rest })
  | .hostWithdraw :: rest => .next (hostWithdraw { s with sched := rest })
  | .envRead r :: rest => .next (regRead .env r { s with sched := rest })
  | .envWrite v :: rest => .next (regWrite .env v { s with sched := rest })

/-- The TMC moves next, and `rest` are the turns after it. -/
abbrev TmcNext (s : State) (rest : List Turn) : Prop :=
  (s.sched = [] ∧ rest = []) ∨ s.sched = .tmc :: rest

/-- A run (R133): reset, then the turns `turns` in their order, which may be any. `p` is `RESET_REGS`. -/
def startRun (p : Prf) (turns : List Turn) : State := { State.resetWith p with sched := turns }

/-- The turn is an offer of the host. -/
def Turn.isOffer : Turn → Bool
  | .hostOffer _ => true
  | .tmc | .hostWithdraw | .envRead _ | .envWrite _ => false

/-- The host has a further command to offer: one is on the port, or an offer is among the turns still
to come (R133). -/
def hostHasMore (s : State) : Bool := s.cmdValid || s.sched.any Turn.isOffer

/-- A run is at its end: the host has no further command to offer, and `busy` is 0 (R133). Turns of the
TMC and of ENV may still be scheduled. -/
def atEnd (s : State) : Bool := !s.busy && !hostHasMore s

/-- An idle TMC, the word `w` on the port and no other turn before the TMC's (log 9). -/
def placeCommand (w : CmdWord) (s : State) : State :=
  { hostOffer w s with busy := false, sched := [] }

end Sys2Proof.Machine
end

