-- ==== Sys2Proof/Machine/Step.lean ====
section
/-! DEFINITION. One step of the machine: the next agent's turn (spec/20_memory.md R42,
spec/70_reset_and_hazards.md R133). -/

namespace Sys2Proof.Machine

def step (s : State) : Host.Outcome State Fault Refusal := takeTurn s

/-- `s` with the command word `w` (its bits from `nbits` up zero) offered to an idle TMC, so that the
next step accepts it (log 9). -/
def State.withFetchWord (s : State) (nbits w : Nat) : State :=
  placeCommand (BitVec.ofNat 32 (w % 2 ^ nbits)) s

end Sys2Proof.Machine
end

