-- ==== Sys2Proof/Safety.lean ====
section
/-! DEFINITION. The terms in which claims about runs are stated: a command run by the TMC alone, a run
of all agents up to the end of the running command or to the end of the run, what a history says a
register holds, what a command leaves, and the invariant of every reachable state. -/

namespace Sys2Proof.Machine

/-! ### Runs -/

/-- `n` consecutive steps of the TMC with the command `i` and no other agent's turn between them, so
`NoInterference` (R42) holds. The whole command takes two steps more than it has transactions. -/
def runCommand : Nat → Instr → State → Host.Outcome State Fault Refusal
  | 0, _, s => .next s
  | n + 1, i, s =>
    match exec i s with
    | .next t => runCommand n i t
    | .fault r => .fault r
    | .refused r => .refused r

/-- `n` steps of the machine, whichever agents move. -/
def run (n : Nat) (s : State) : Host.Outcome State Fault Refusal := Host.Core.run Sys2Proof.core n s

/-- At most `n` steps of the machine, whichever agents move, as long as the TMC is busy: the run ends
with the completion of the running command (R133: a busy state is never final). -/
def runUntilIdle : Nat → State → Host.Outcome State Fault Refusal
  | 0, s => .next s
  | n + 1, s =>
    if s.busy then
      match step s with
      | .next t => runUntilIdle n t
      | .fault r => .fault r
      | .refused r => .refused r
    else .next s

/-- At most `n` steps of the machine, whichever agents move, up to the end of the run (R133). What the
command sequence did is then the register file and the Trace of the state reached. -/
def runToEnd : Nat → State → Host.Outcome State Fault Refusal
  | 0, s => .next s
  | n + 1, s =>
    if atEnd s then .next s
    else
      match step s with
      | .next t => runToEnd n t
      | .fault r => .fault r
      | .refused r => .refused r

/-- The turns of a host that offers the commands `cs` one after the other, each after the previous one
has completed, with no transaction of ENV (the programs of spec/95_test_vectors.md): the longest command
takes ten steps of the TMC, and an idle TMC without an offer waits. -/
def programTurns (cs : List Instr) : List Turn :=
  cs.flatMap fun i => .hostOffer (encode i) :: List.replicate 10 .tmc

/-- An outcome with its next state, if it has one, replaced by `f` of it. -/
def mapNext (f : State → State) :
    Host.Outcome State Fault Refusal → Host.Outcome State Fault Refusal
  | .next t => .next (f t)
  | .fault r => .fault r
  | .refused r => .refused r

/-! ### Histories -/

/-- The agent that issued an event. -/
def Event.agent : Event → Agent
  | .read who _ | .write who _ => who

/-- The events of the TMC in a history (R76 speaks of these). -/
def tmcEvents (tr : List Event) : List Event := tr.filter fun e => e.agent == .tmc

/-- The events of ENV that write a register (R42). -/
def envWrites (tr : List Event) : List Event :=
  tr.filter fun e =>
    match e with
    | .write .env _ => true
    | .write .tmc _ | .read _ _ => false

/-- The value an event writes to register `r`, if it does. -/
def Event.writesTo (r : RegId) : Event → Option RegVal
  | .write _ v => if v.reg = r then some v else none
  | .read _ _ => none

/-- What register `r` holds after the history `tr`: the value most recently written to it by any
agent, or what `p` (`RESET_REGS`) gives it if none was (R30). -/
def lastValue (p : Prf) (tr : List Event) (r : RegId) : RegVal :=
  match tr.reverse.findSome? (Event.writesTo r) with
  | some v => v
  | none => p.read r

/-- Every read in the history returned the latest earlier write to its register (R42). -/
def Coherent (p : Prf) (tr : List Event) : Prop :=
  ∀ before who v after, tr = before ++ .read who v :: after → v = lastValue p before v.reg

/-! ### Commands -/

/-- `COMA` and `COMB` in their default positions, 0 elsewhere: `OUT_BITS` (R70). -/
def outByte (oa ob : OutMode) : Byte := oa.code.setWidth 8 <<< 6 ||| ob.code.setWidth 8 <<< 4

/-- `CS` in its default position, 0 elsewhere: `CS_BITS` (R71). -/
def csByte (ps : Prescaler) : Byte := ps.code.setWidth 8

/-- The register file an initialisation leaves of `p`, when `a` and `b` are its `MODE_A` and `MODE_B`
and `dest` is its `DEST` (R75). -/
def initEnd (a b : Byte) (dest : Option TopDest) (ps : Prescaler) (oa ob : OutMode) (v : Word16)
    (p : Prf) : Prf where
  cnt := 0
  cra := a ||| outByte oa ob
  crb := b ||| csByte ps
  topr := if dest = some .topr then v else p.topr
  cmpa := if dest = some .cmpa then v else p.cmpa
  cmpb := p.cmpb

/-- The TMC's events of an initialisation whose two reads return `ra` and `rb` (R76). -/
def initEvents (a b : Byte) (dest : Option TopDest) (ps : Prescaler) (oa ob : OutMode) (v : Word16)
    (ra rb : Byte) : List Event :=
  [.write .tmc (.cnt 0), .write .tmc (.cra a), .write .tmc (.crb b)]
    ++ (match dest with
        | none => []
        | some .topr => [.write .tmc (.topr v)]
        | some .cmpa => [.write .tmc (.cmpa v)])
    ++ [.read .tmc (.cra ra), .write .tmc (.cra (ra ||| outByte oa ob)),
        .read .tmc (.crb rb), .write .tmc (.crb (rb ||| csByte ps))]

/-- What the rule of one initialisation variant says (the template of R85 to R89 and R91 to R97): the
words that encode it, the word of each choice of operands, and, from every idle state with no other
agent's turn in between, its transactions, the registers it leaves and the completion. -/
def InitVariant (mk : Prescaler → OutMode → OutMode → Word16 → Instr) (matched : CmdWord)
    (a b : Byte) (dest : Option TopDest) (fam : Cfg) : Prop :=
  (∀ w, w &&& 0xFC700000#32 = matched ↔ ∃ ps oa ob v, decode w = .command (mk ps oa ob v))
    ∧ (∀ ps oa ob v, encode (mk ps oa ob v) = matched ||| ps.code.setWidth 32 <<< 23
        ||| oa.code.setWidth 32 <<< 18 ||| ob.code.setWidth 32 <<< 16 ||| v.setWidth 32)
    ∧ ∀ ps oa ob v s, s.busy = false →
      ∃ t, runCommand ((if dest = none then 7 else 8) + 2) (mk ps oa ob v) s = .next t
        ∧ t.trace = s.trace ++ initEvents a b dest ps oa ob v a b
        ∧ t.prf = initEnd a b dest ps oa ob v s.prf
        ∧ t.busy = false ∧ t.doneCount = s.doneCount + 1 ∧ t.cfg = fam

/-- What the rule of one register load says (the template of R99 to R101): the words that encode it,
the word of each operand, its one transaction, and the whole command from every idle state, whatever
`cfg` is. -/
def LoadVariant (mk : Word16 → Instr) (matched : CmdWord) (val : Word16 → RegVal) : Prop :=
  (∀ w, w &&& 0xFFFF0000#32 = matched ↔ ∃ v, decode w = .command (mk v))
    ∧ (∀ v, encode (mk v) = matched ||| v.setWidth 32)
    ∧ (∀ v s, s.busy = true → s.upc = 0 →
        exec (mk v) s = .next { s with
          prf := s.prf.write (val v), trace := s.trace ++ [.write .tmc (val v)], upc := 1 })
    ∧ ∀ v s, s.busy = false →
      ∃ t, runCommand 3 (mk v) s = .next t
        ∧ t.trace = s.trace ++ [.write .tmc (val v)]
        ∧ t.prf.read (val v).reg = val v
        ∧ (∀ r, r ≠ (val v).reg → t.prf.read r = s.prf.read r)
        ∧ t.busy = false ∧ t.doneCount = s.doneCount + 1 ∧ t.cfg = s.cfg

/-- The register file a command alone leaves of `p`: the end states of R85 to R89, R91 to R97 and R99 to
R101. -/
def commandEnd (i : Instr) (p : Prf) : Prf :=
  match i with
  | .initFastBit8 ps oa ob v | .initPcBit8 ps oa ob v => initEnd 0x01 0x00 none ps oa ob v p
  | .initFastBit9 ps oa ob v | .initPcBit9 ps oa ob v => initEnd 0x02 0x00 none ps oa ob v p
  | .initFastBit10 ps oa ob v | .initPcBit10 ps oa ob v => initEnd 0x03 0x00 none ps oa ob v p
  | .initFastTopCmpa ps oa ob v | .initPcTopCmpa ps oa ob v =>
    initEnd 0x02 0x10 (some .cmpa) ps oa ob v p
  | .initFastTopTopr ps oa ob v | .initPcTopTopr ps oa ob v =>
    initEnd 0x02 0x10 (some .topr) ps oa ob v p
  | .initPcFcTopCmpa ps oa ob v => initEnd 0x00 0x10 (some .cmpa) ps oa ob v p
  | .initPcFcTopTopr ps oa ob v => initEnd 0x00 0x10 (some .topr) ps oa ob v p
  | .setCmpa v => { p with cmpa := v }
  | .setCmpb v => { p with cmpb := v }
  | .setTop v => { p with topr := v }

/-- The registers an operation may write: its row of the access matrix of R25. -/
def writable (i : Instr) : List RegId :=
  match i with
  | .setCmpa _ => [.cmpa]
  | .setCmpb _ => [.cmpb]
  | .setTop _ => [.topr]
  | .initFastBit8 .. | .initFastBit9 .. | .initFastBit10 ..
  | .initPcBit8 .. | .initPcBit9 .. | .initPcBit10 .. => [.cnt, .cra, .crb]
  | .initFastTopCmpa .. | .initPcTopCmpa .. | .initPcFcTopCmpa .. => [.cnt, .cra, .crb, .cmpa]
  | .initFastTopTopr .. | .initPcTopTopr .. | .initPcFcTopTopr .. => [.cnt, .cra, .crb, .topr]

/-- The registers an operation may read: its row of the access matrix of R25. -/
def readable (i : Instr) : List RegId :=
  match i with
  | .setCmpa _ | .setCmpb _ | .setTop _ => []
  | .initFastBit8 .. | .initFastBit9 .. | .initFastBit10 .. | .initFastTopCmpa ..
  | .initFastTopTopr .. | .initPcBit8 .. | .initPcBit9 .. | .initPcBit10 .. | .initPcTopCmpa ..
  | .initPcTopTopr .. | .initPcFcTopCmpa .. | .initPcFcTopTopr .. => [.cra, .crb]

/-! ### The invariant -/

/-- What holds in every state a run from reset reaches, `p` being the register contents after reset:
`upc` is in its range (R14) and, while the TMC is busy, at most the length of the micro-program; every
register holds what the history says (R30); every read in the history was coherent (R42); and between
the halves of a merge `tmp` is what the TMC's last transaction read (R16). -/
structure TmcInv (p : Prf) (s : State) : Prop where
  upcRange : s.upc ≤ 8
  inProgram : s.busy = true → s.upc ≤ (prog s.cmd).length
  stored : ∀ r, s.prf.read r = lastValue p s.trace r
  coherent : Coherent p s.trace
  merging : s.busy = true → ∀ c k, (prog s.cmd)[s.upc]? = some (.wor c k) →
    (tmcEvents s.trace).getLast? = some (.read .tmc (ctlVal c s.tmp))

end Sys2Proof.Machine
end

