-- ==== Sys2Proof/Certificates/Slice0/Obligations.lean ====
section
/-! DEFINITION. The statements for the provers, from the numbered rules of spec/. A statement's
docstring names the rule it formalises; where it rests on a choice of the model it says so. -/

open Sys2Proof Sys2Proof.Machine

/-! ### Encoding -/

/-- R59: the encoding formulas of the five operations, the round trip in both directions, and the
worked example. The spec marks R59 as its inference ("derived: from rules R48, R56 and R57"). -/
def Obligations.EncodeDecodeInverse : Prop :=
  (∀ sm ps oa ob v, encode (.initFast sm ps oa ob v)
      = 0#32 <<< 26 ||| ps.code.setWidth 32 <<< 23 ||| sm.code.setWidth 32 <<< 20
        ||| oa.code.setWidth 32 <<< 18 ||| ob.code.setWidth 32 <<< 16 ||| v.setWidth 32)
    ∧ (∀ sm ps oa ob v, encode (.initPc sm ps oa ob v)
      = 1#32 <<< 26 ||| ps.code.setWidth 32 <<< 23 ||| sm.code.setWidth 32 <<< 20
        ||| oa.code.setWidth 32 <<< 18 ||| ob.code.setWidth 32 <<< 16 ||| v.setWidth 32)
    ∧ (∀ v, encode (.setCmpa v) = 2#32 <<< 26 ||| v.setWidth 32)
    ∧ (∀ v, encode (.setCmpb v) = 3#32 <<< 26 ||| v.setWidth 32)
    ∧ (∀ v, encode (.setTop v) = 4#32 <<< 26 ||| v.setWidth 32)
    ∧ (∀ i, decode (encode i) = .command i)
    ∧ (∀ w i, decode w = .command i → encode i = w)
    ∧ encode (.initFast .bit8 .div64 .nonInv .disc 0) = 0x01880000#32

/-- R56: a word is invalid exactly when one of the clauses (a) to (e) holds of its bits. -/
def Obligations.ReservedExactly : Prop :=
  ∀ w : CmdWord, (∃ why, decode w = .invalid why) ↔
    (w.extractLsb' 29 3 ≠ 0
      ∨ w.extractLsb' 26 3 = 5 ∨ w.extractLsb' 26 3 = 6 ∨ w.extractLsb' 26 3 = 7
      ∨ (w.extractLsb' 26 3 = 0
          ∧ (w.extractLsb' 20 3 = 5 ∨ w.extractLsb' 20 3 = 6 ∨ w.extractLsb' 20 3 = 7))
      ∨ (w.extractLsb' 26 3 = 1 ∧ w.extractLsb' 20 3 = 7)
      ∨ ((w.extractLsb' 26 3 = 2 ∨ w.extractLsb' 26 3 = 3 ∨ w.extractLsb' 26 3 = 4)
          ∧ w.extractLsb' 16 10 ≠ 0))

/-- R63: the fifteen patterns of the opcode table are pairwise disjoint, and a word that matches none
is invalid. Which command each pattern decodes to is in the three statements of the variants. -/
def Obligations.OpcodePatternsPartition : Prop :=
  let rows : List (CmdWord × CmdWord) :=
      [(0xFC700000, 0x00000000), (0xFC700000, 0x00100000), (0xFC700000, 0x00200000),
       (0xFC700000, 0x00300000), (0xFC700000, 0x00400000), (0xFC700000, 0x04000000),
       (0xFC700000, 0x04100000), (0xFC700000, 0x04200000), (0xFC700000, 0x04300000),
       (0xFC700000, 0x04400000), (0xFC700000, 0x04500000), (0xFC700000, 0x04600000),
       (0xFFFF0000, 0x08000000), (0xFFFF0000, 0x0C000000), (0xFFFF0000, 0x10000000)]
  rows.Pairwise (fun a b => ∀ w, ¬ (w &&& a.1 = a.2 ∧ w &&& b.1 = b.2))
    ∧ ∀ w, (∃ why, decode w = .invalid why) ↔ ∀ r ∈ rows, w &&& r.1 ≠ r.2

/-- Words written out from R48 to R53 decode to the commands they stand for, at least one per family,
and reserved words are rejected under the clause of R56 they fall under (the table V1). -/
def Obligations.SampleWordsDecode : Prop :=
  decode 0b00000001100010110001001000110100#32
      = .command (.initFastBit8 .div64 .nonInv .inv 0x1234)
    ∧ decode 0b00000101111010110001001000110100#32
      = .command (.initPcFcTopTopr .div64 .nonInv .inv 0x1234)
    ∧ decode 0b00000111111011111111111111111111#32
      = .command (.initPcFcTopTopr .extRise .inv .inv 0xFFFF)
    ∧ decode 0b00001000000000000010101010111100#32 = .command (.setCmpa 0x2ABC)
    ∧ decode 0b00001100000000000000000000000001#32 = .command (.setCmpb 1)
    ∧ decode 0b00010000000000000100111000011111#32 = .command (.setTop 0x4E1F)
    ∧ decode 0x20000000#32 = .invalid .reservedBitsSet
    ∧ decode 0x14000000#32 = .invalid .operationReserved
    ∧ decode 0x00500000#32 = .invalid .fastSubModeReserved
    ∧ decode 0x04700000#32 = .invalid .pcSubModeReserved
    ∧ decode 0x08010000#32 = .invalid .loadOperandNotZero

/-- R50 to R53, R70, R71: the code of every operand, the reserved codes, and the field values made of
the codes: `OUT_BITS` and `CS_BITS` in the default positions. -/
def Obligations.OperandCodes : Prop :=
  [Prescaler.stop, .div1, .div8, .div64, .div256, .div1024, .extFall, .extRise].map Prescaler.code
      = [0, 1, 2, 3, 4, 5, 6, 7]
    ∧ [FastSub.bit8, .bit9, .bit10, .topCmpa, .topTopr].map FastSub.code = [0, 1, 2, 3, 4]
    ∧ [PcSub.bit8, .bit9, .bit10, .topCmpa, .topTopr, .fcTopCmpa, .fcTopTopr].map PcSub.code
      = [0, 1, 2, 3, 4, 5, 6]
    ∧ [OutMode.disc, .toggle, .nonInv, .inv].map OutMode.code = [0, 1, 2, 3]
    ∧ (∀ c, FastSub.ofCode? c = none ↔ c = 5 ∨ c = 6 ∨ c = 7)
    ∧ (∀ c, PcSub.ofCode? c = none ↔ c = 7)
    ∧ (∀ oa ob, outBits Config.layout oa ob
        = oa.code.setWidth 8 <<< 6 ||| ob.code.setWidth 8 <<< 4)
    ∧ ∀ ps, csBits Config.layout ps = ps.code.setWidth 8

/-! ### Parameters and encoders -/

/-- R7: the default field positions meet the constraints R7 lists, and one more that `Layout.Ok` demands:
the output fields lie in CRA and the prescaler field in CRB. That last constraint is not in R7; it is the
model's reading of R65, R70 and R71 (DEDUCED, log 7). -/
def Obligations.DefaultLayoutMeetsConstraints : Prop := Config.layout.Ok

/-- R6, R7, R66, R70, R71: with any field positions that meet the constraints, the fields of the end
values of CRA and CRB read back what was put into them, and every bit outside the fields is 0. That
the output fields lie in CRA and the prescaler field in CRB is the model's reading (log 7). -/
def Obligations.FieldsReadBackInAnyLayout : Prop :=
  ∀ (l : Layout), l.Ok → ∀ (m : ModeBits) (oa ob : OutMode) (ps : Prescaler) (c : CtlReg → Byte),
    c .cra = modeReg l .cra m ||| outBits l oa ob →
    c .crb = modeReg l .crb m ||| csBits l ps →
    (c l.low.reg).getLsbD l.low.bit = m.low
      ∧ (c l.mid.reg).getLsbD l.mid.bit = m.mid
      ∧ (c l.high.reg).getLsbD l.high.bit = m.high
      ∧ (c .cra).extractLsb' l.coma.bit 2 = oa.code
      ∧ (c .cra).extractLsb' l.comb.bit 2 = ob.code
      ∧ (c .crb).extractLsb' l.cs.bit 3 = ps.code
      ∧ ∀ r k, ⟨r, k⟩ ∉ l.bits → (c r).getLsbD k = false

/-- R66 and R67: the mode-select bits, `MODE_A`, `MODE_B` and `DEST` of each sub-mode, row for row.
The two register columns are the spec's inference ("derived: from `00_scope.md` rule R6"). -/
def Obligations.ResolutionEncoderTable : Prop :=
  let row : InitMode → Bool → Bool → Bool → Byte → Byte → Option TopDest → Prop :=
    fun m low mid high a b d => modeBits m = ⟨low, mid, high⟩
      ∧ modeReg Config.layout .cra (modeBits m) = a
      ∧ modeReg Config.layout .crb (modeBits m) = b ∧ topDest m = d
  row (.fast .bit8) true false false 0x01 0x00 none
    ∧ row (.fast .bit9) false true false 0x02 0x00 none
    ∧ row (.fast .bit10) true true false 0x03 0x00 none
    ∧ row (.fast .topCmpa) false true true 0x02 0x10 (some .cmpa)
    ∧ row (.fast .topTopr) false true true 0x02 0x10 (some .topr)
    ∧ row (.pc .bit8) true false false 0x01 0x00 none
    ∧ row (.pc .bit9) false true false 0x02 0x00 none
    ∧ row (.pc .bit10) true true false 0x03 0x00 none
    ∧ row (.pc .topCmpa) false true true 0x02 0x10 (some .cmpa)
    ∧ row (.pc .topTopr) false true true 0x02 0x10 (some .topr)
    ∧ row (.pc .fcTopCmpa) false false true 0x00 0x10 (some .cmpa)
    ∧ row (.pc .fcTopTopr) false false true 0x00 0x10 (some .topr)

/-- R32: whatever injective map binds the identifiers to platform addresses, an address selects the
register it was given to, and a write there is seen there and at no other register's address. -/
def Obligations.AddressesNameDistinctStorage : Prop :=
  ∀ (a : AddrMap) (who : Agent) (v : RegVal) (s : State) (r : RegId),
    busSelect a (a.addr r) = some r
      ∧ ((regWrite who v s).prf.read r = if a.addr r = a.addr v.reg then v else s.prf.read r)

/-! ### Reset -/

/-- R29, R116: the state after reset, whatever `RESET_REGS` is. The rest is the model's choice:
`State.reset` is it with all six registers zero (log 1), no word is on the port (log 4), and no turn is
scheduled (log 3). -/
def Obligations.ResetLeaves : Prop :=
  (∀ p : Prf, (State.resetWith p).busy = false ∧ (State.resetWith p).upc = 0
      ∧ (State.resetWith p).cfg = .uninit ∧ (State.resetWith p).trace = []
      ∧ (State.resetWith p).prf = p)
    ∧ State.reset = State.resetWith ⟨0, 0, 0, 0, 0, 0⟩
    ∧ State.reset.cmdValid = false ∧ State.reset.sched = []

/-- R104, R117: an idle TMC to which nothing is offered is ready and waits: its turn changes nothing (a
scheduled turn is taken off the schedule). That this waiting is a step is the model's reading (DEDUCED,
log 11). -/
def Obligations.IdleTmcWaits : Prop :=
  ∀ s : State, s.busy = false → s.cmdValid = false →
    cmdReady s = true
      ∧ (s.sched = [] → step s = .next s)
      ∧ ∀ rest, s.sched = .tmc :: rest → step s = .next { s with sched := rest }

/-- R117: in every run that begins with reset and in which the host offers nothing, whatever else is
scheduled and for any number of steps, the TMC stays idle and issues no transaction, and the registers
stay at `RESET_REGS` as long as ENV writes none. That nothing is on the port at reset is the model's
reading (log 4). -/
def Obligations.NoTransactionBeforeAnOffer : Prop :=
  ∀ (p : Prf) (turns : List Turn) (n : Nat), (∀ w, .hostOffer w ∉ turns) →
    ∃ t, run n (startRun p turns) = .next t ∧ t.busy = false ∧ tmcEvents t.trace = []
      ∧ (envWrites t.trace = [] → t.prf = p)

/-! ### The three step rules -/

/-- R72 and R58: when the TMC moves, by a scheduled turn or because none is scheduled (log 3), and it is
idle and offered a word, it accepts the command the word decodes to, without a transaction and with the
register file unchanged; an invalid word is refused; while busy, no command is accepted and the offer
stays on the port. -/
def Obligations.AcceptanceStep : Prop :=
  (∀ s rest i, TmcNext s rest → s.busy = false → s.cmdValid = true →
      decode s.cmdWord = .command i →
      ∃ t, step s = .next t ∧ exec i { s with sched := rest } = .next t
        ∧ t.cmd = i ∧ t.upc = 0 ∧ t.busy = true
        ∧ t.prf = s.prf ∧ t.trace = s.trace ∧ t.tmp = s.tmp ∧ t.cfg = s.cfg
        ∧ t.doneCount = s.doneCount ∧ t.sched = rest ∧ cmdReady s = true)
    ∧ (∀ s rest why, TmcNext s rest → s.busy = false → s.cmdValid = true →
        decode s.cmdWord = .invalid why → step s = .refused (.invalidCommand why))
    ∧ ∀ s t, s.busy = true → step s = .next t →
        cmdReady s = false ∧ t.cmd = s.cmd
          ∧ ∀ rest, TmcNext s rest → t.cmdValid = s.cmdValid ∧ t.cmdWord = s.cmdWord

/-- R73: a busy TMC inside its micro-program issues the one transaction of the next micro-operation
and advances `upc` by 1. It does so for every command, in every such state; and whichever agent
moves, a running command keeps running until its micro-program is through. -/
def Obligations.MicroStepTransaction : Prop :=
  (∀ i s v, s.busy = true → (prog i)[s.upc]? = some (.w v) →
      exec i s = .next { s with
        prf := s.prf.write v, trace := s.trace ++ [.write .tmc v], upc := s.upc + 1 })
    ∧ (∀ i s c, s.busy = true → (prog i)[s.upc]? = some (.r c) →
      exec i s = .next { s with
        tmp := s.prf.ctl c, trace := s.trace ++ [.read .tmc (s.prf.read c.id)], upc := s.upc + 1 })
    ∧ (∀ i s c k, s.busy = true → (prog i)[s.upc]? = some (.wor c k) →
      exec i s = .next { s with
        prf := s.prf.write (ctlVal c (s.tmp ||| k)),
        trace := s.trace ++ [.write .tmc (ctlVal c (s.tmp ||| k))], upc := s.upc + 1 })
    ∧ ∀ s t, s.busy = true → step s = .next t → t.cmd = s.cmd
        ∧ (t.busy = false → s.upc = (prog s.cmd).length)

/-- R74: a busy TMC at the end of its micro-program completes the command: `busy` falls, `cmd_done` is
raised, `cfg` becomes the family of an initialisation and stays for a load; nothing else changes. What
the completed command leaves in the latch, in `upc` and in `tmp` is not read when the next one is
accepted. -/
def Obligations.CompletionStep : Prop :=
  (∀ sm ps oa ob v s, s.busy = true → s.upc = (prog (.initFast sm ps oa ob v)).length →
      exec (.initFast sm ps oa ob v) s
        = .next { s with busy := false, doneCount := s.doneCount + 1, cfg := .fast })
    ∧ (∀ sm ps oa ob v s, s.busy = true → s.upc = (prog (.initPc sm ps oa ob v)).length →
      exec (.initPc sm ps oa ob v) s
        = .next { s with busy := false, doneCount := s.doneCount + 1, cfg := .pc })
    ∧ (∀ v s i, i = .setCmpa v ∨ i = .setCmpb v ∨ i = .setTop v → s.busy = true → s.upc = 1 →
      exec i s = .next { s with busy := false, doneCount := s.doneCount + 1 })
    ∧ ∀ j s cmd upc tmp, s.busy = false →
      exec j { s with cmd := cmd, upc := upc, tmp := tmp }
        = mapNext (fun t => { t with tmp := tmp }) (exec j s)

/-- A step runs the decoded command: when the TMC is to move, the step is `exec` of the latched
command if it is busy, and of the command the offered word decodes to if it is idle; a TMC turn at
the head of the schedule is taken off it first. `withFetchWord` sets such a state up. The schedule and
`withFetchWord` are the model's (logs 3 and 9). -/
def Obligations.StepRunsCommand : Prop :=
  (∀ s, s.sched = [] → s.busy = true → step s = exec s.cmd s)
    ∧ (∀ s i, s.sched = [] → s.busy = false → s.cmdValid = true →
        decode s.cmdWord = .command i → step s = exec i s)
    ∧ (∀ s rest, s.sched = .tmc :: rest → s.busy = true →
        step s = exec s.cmd { s with sched := rest })
    ∧ (∀ s i rest, s.sched = .tmc :: rest → s.busy = false → s.cmdValid = true →
        decode s.cmdWord = .command i → step s = exec i { s with sched := rest })
    ∧ ∀ (s : State) (nbits w : Nat) (i : Instr), decodeTableWord nbits w = some i →
        step (s.withFetchWord nbits w) = exec i (s.withFetchWord nbits w)

/-- R104: in every state that meets the invariant a step has one of two outcomes, the next state or,
only when an idle TMC is offered an invalid word, the spec's refusal; there is no fault. -/
def Obligations.StepOutcomes : Prop :=
  ∀ p s, TmcInv p s →
    (∃ t, step s = .next t)
      ∨ (∃ why, step s = .refused (.invalidCommand why) ∧ s.busy = false ∧ s.cmdValid = true
          ∧ decode s.cmdWord = .invalid why)

/-- R103, R104: a meaning never refuses, and stops only where `upc` lies past the end of the
micro-program of a busy TMC, which the invariant rules out (log 6). -/
def Obligations.MeaningsAnswerNext : Prop :=
  ∀ i s, (∃ t, exec i s = .next t)
    ∨ (exec i s = .fault .sequencerStuck ∧ s.busy = true ∧ (prog i).length < s.upc)

/-- R104, R132: every command, alone, ends after exactly as many transactions as its micro-program
has, 1, 7 or 8, and not before. -/
def Obligations.EveryCommandCompletes : Prop :=
  ∀ i s, s.busy = false →
    ((prog i).length = 1 ∨ (prog i).length = 7 ∨ (prog i).length = 8)
      ∧ (∀ k, k ≤ (prog i).length →
          ∃ t ev, runCommand (k + 1) i s = .next t ∧ t.busy = true
            ∧ t.trace = s.trace ++ ev ∧ ev.length = k)
      ∧ ∃ t ev, runCommand ((prog i).length + 2) i s = .next t ∧ t.busy = false
          ∧ t.doneCount = s.doneCount + 1 ∧ t.trace = s.trace ++ ev ∧ ev.length = (prog i).length

/-- R104: whatever the other agents do between its transactions, a running command ends: the number
of steps is at most the turns still scheduled plus the transactions still to issue plus one. -/
def Obligations.CommandEndsUnderAnySchedule : Prop :=
  ∀ s, s.busy = true → s.upc ≤ (prog s.cmd).length →
    ∃ t, runUntilIdle (s.sched.length + ((prog s.cmd).length - s.upc) + 1) s = .next t
      ∧ t.busy = false ∧ t.cmd = s.cmd ∧ t.upc = (prog s.cmd).length
      ∧ (tmcEvents t.trace).length
          = (tmcEvents s.trace).length + ((prog s.cmd).length - s.upc)

/-! ### The initialisations -/

/-- R85 to R89: the five Fast-PWM variants. -/
def Obligations.InitFastVariants : Prop :=
  InitVariant .initFastBit8 0x00000000 0x01 0x00 none .fast
    ∧ InitVariant .initFastBit9 0x00100000 0x02 0x00 none .fast
    ∧ InitVariant .initFastBit10 0x00200000 0x03 0x00 none .fast
    ∧ InitVariant .initFastTopCmpa 0x00300000 0x02 0x10 (some .cmpa) .fast
    ∧ InitVariant .initFastTopTopr 0x00400000 0x02 0x10 (some .topr) .fast

/-- R91 to R97: the seven Phase-Correct variants. No Fast-PWM command has the mode-select bits of the
last two (R96). -/
def Obligations.InitPcVariants : Prop :=
  InitVariant .initPcBit8 0x04000000 0x01 0x00 none .pc
    ∧ InitVariant .initPcBit9 0x04100000 0x02 0x00 none .pc
    ∧ InitVariant .initPcBit10 0x04200000 0x03 0x00 none .pc
    ∧ InitVariant .initPcTopCmpa 0x04300000 0x02 0x10 (some .cmpa) .pc
    ∧ InitVariant .initPcTopTopr 0x04400000 0x02 0x10 (some .topr) .pc
    ∧ InitVariant .initPcFcTopCmpa 0x04500000 0x00 0x10 (some .cmpa) .pc
    ∧ InitVariant .initPcFcTopTopr 0x04600000 0x00 0x10 (some .topr) .pc
    ∧ ∀ sm, modeBits (.fast sm) ≠ modeBits (.pc .fcTopCmpa)
        ∧ modeBits (.fast sm) ≠ modeBits (.pc .fcTopTopr)

/-- R68: the first transaction of every initialisation, whatever the operands, writes 0 to CNT. -/
def Obligations.CounterResetFirst : Prop :=
  ∀ m ps oa ob v s, s.busy = true → s.upc = 0 →
    ∃ t, exec (.init m ps oa ob v) s = .next t ∧ t.prf = { s.prf with cnt := 0 }
      ∧ t.trace = s.trace ++ [.write .tmc (.cnt 0)]

/-- R75: the end state of an initialisation under any interleaving of the agents in which no ENV write
falls between its acceptance and its completion. (R42's `NoInterference` counts from the first to the
last transaction; an ENV write after acceptance and before the first transaction changes the contents
the command starts from, so the premise here begins at acceptance and ends at completion.) -/
def Obligations.InitEndStateUndisturbed : Prop :=
  ∀ m ps oa ob v n s t ev, s.busy = true → s.cmd = .init m ps oa ob v → s.upc = 0 →
    runUntilIdle n s = .next t → t.busy = false → t.trace = s.trace ++ ev → envWrites ev = [] →
    t.prf = initEnd (modeReg Config.layout .cra (modeBits m)) (modeReg Config.layout .crb (modeBits m))
        (topDest m) ps oa ob v s.prf

/-- R75, R19, R20: the end state in fields: each field of CRA and CRB holds what the command says and
every unnamed bit is 0. -/
def Obligations.InitEndStateFields : Prop :=
  ∀ m ps oa ob v s, s.busy = false →
    ∃ t, runCommand ((prog (.init m ps oa ob v)).length + 2) (.init m ps oa ob v) s = .next t
      ∧ t.prf.cra.extractLsb' 6 2 = oa.code ∧ t.prf.cra.extractLsb' 4 2 = ob.code
      ∧ t.prf.cra.extractLsb' 2 2 = 0 ∧ t.prf.cra.getLsbD 1 = (modeBits m).mid
      ∧ t.prf.cra.getLsbD 0 = (modeBits m).low
      ∧ t.prf.crb.extractLsb' 5 3 = 0 ∧ t.prf.crb.getLsbD 4 = (modeBits m).high
      ∧ t.prf.crb.getLsbD 3 = false ∧ t.prf.crb.extractLsb' 0 3 = ps.code

/-- R76: under ANY interleaving, ENV writes included, the TMC's events of one initialisation are
exactly the list of R76, with `a` and `b` the values its two reads returned. -/
def Obligations.InitTraceUnderInterference : Prop :=
  ∀ m ps oa ob v n s t, s.busy = true → s.cmd = .init m ps oa ob v → s.upc = 0 →
    runUntilIdle n s = .next t → t.busy = false →
    ∃ a b, tmcEvents t.trace = tmcEvents s.trace
      ++ initEvents (modeReg Config.layout .cra (modeBits m))
          (modeReg Config.layout .crb (modeBits m)) (topDest m) ps oa ob v a b

/-- R128: the register file between the transactions of an initialisation with no other agent's turn
in between: after W(CNT), after W(CRA), after W(CRB), after the optional W(DEST), after the merge of
CRA, after the merge of CRB. The spec marks R128 as its inference ("derived: from
`40_init_common.md` rules R65 and R69 to R71"). -/
def Obligations.InitIntermediateStates : Prop :=
  ∀ m ps oa ob v s, s.busy = false →
    let d := if topDest m = none then 0 else 1
    let a := modeReg Config.layout .cra (modeBits m)
    let b := modeReg Config.layout .crb (modeBits m)
    ∃ t1 t2 t3 t4 t5 t6,
      runCommand 2 (.init m ps oa ob v) s = .next t1 ∧ t1.prf = { s.prf with cnt := 0 }
        ∧ runCommand 3 (.init m ps oa ob v) s = .next t2 ∧ t2.prf = { t1.prf with cra := a }
        ∧ t2.prf.cra.extractLsb' 4 4 = 0
        ∧ runCommand 4 (.init m ps oa ob v) s = .next t3 ∧ t3.prf = { t2.prf with crb := b }
        ∧ t3.prf.crb.extractLsb' 0 3 = 0
        ∧ runCommand (4 + d) (.init m ps oa ob v) s = .next t4
        ∧ t4.prf = { t3.prf with
            topr := if topDest m = some .topr then v else s.prf.topr
            cmpa := if topDest m = some .cmpa then v else s.prf.cmpa }
        ∧ runCommand (6 + d) (.init m ps oa ob v) s = .next t5
        ∧ t5.prf = { t4.prf with cra := a ||| outByte oa ob }
        ∧ runCommand (8 + d) (.init m ps oa ob v) s = .next t6
        ∧ t6.prf = { t5.prf with crb := b ||| csByte ps }

/-- R77: the same initialisation twice leaves what it leaves once; a second initialisation leaves
nothing of the first in CRA and CRB, and TOPR, CMPA and CMPB survive it except the register its `DEST`
names; any command may follow any command. The spec marks R77 as its inference ("derived: from rule
R75"). -/
def Obligations.ReinitialisationOverwrites : Prop :=
  (∀ m ps oa ob v s i, i = .init m ps oa ob v → s.busy = false →
      ∃ t u, runCommand ((prog i).length + 2) i s = .next t
        ∧ runCommand ((prog i).length + 2) i t = .next u ∧ u.prf = t.prf)
    ∧ (∀ m ps oa ob v m' ps' oa' ob' v' s i j, i = .init m ps oa ob v →
        j = .init m' ps' oa' ob' v' → s.busy = false →
        ∃ t u x, runCommand ((prog i).length + 2) i s = .next t
          ∧ runCommand ((prog j).length + 2) j t = .next u
          ∧ runCommand ((prog j).length + 2) j s = .next x
          ∧ u.prf.cra = x.prf.cra ∧ u.prf.crb = x.prf.crb
          ∧ (topDest m' ≠ some .topr → u.prf.topr = t.prf.topr)
          ∧ (topDest m' ≠ some .cmpa → u.prf.cmpa = t.prf.cmpa)
          ∧ u.prf.cmpb = t.prf.cmpb)
    ∧ ∀ i j s, s.busy = false →
        ∃ t u, runCommand ((prog i).length + 2) i s = .next t
          ∧ runCommand ((prog j).length + 2) j t = .next u

/-- R80: with a fixed-resolution sub-mode (codes 0, 1, 2 of either family) the top value is written
nowhere: two commands that differ only in it have the same micro-program, trace and end state.
The spec marks R80 as its inference ("derived: from rules R65 and R67"). -/
def Obligations.FixedResolutionIgnoresTop : Prop :=
  ∀ m, m ∈ [InitMode.fast .bit8, .fast .bit9, .fast .bit10, .pc .bit8, .pc .bit9, .pc .bit10] →
    ∀ ps oa ob v v', prog (.init m ps oa ob v) = prog (.init m ps oa ob v')
      ∧ ∀ s, s.busy = false →
        ∃ t u, runCommand 9 (.init m ps oa ob v) s = .next t
          ∧ runCommand 9 (.init m ps oa ob v') s = .next u
          ∧ t.busy = false ∧ u.busy = false ∧ t.prf = u.prf ∧ t.trace = u.trace
          ∧ t.prf.topr = s.prf.topr ∧ t.prf.cmpa = s.prf.cmpa

/-- R83: `INIT_FAST` and `INIT_PC` with equal operands and a sub-mode both have (codes 0 to 4) have
the same micro-program, trace and end state; they differ in the ghost `cfg`. The codes 5 and 6 exist
only under `INIT_PC`. R83 is the spec's reading of its source's two tables ("decision: see
92_eei_decisions.md D11"). -/
def Obligations.FamilyLeavesNoMark : Prop :=
  (∀ f c, (f, c) ∈ [(FastSub.bit8, PcSub.bit8), (.bit9, .bit9), (.bit10, .bit10),
      (.topCmpa, .topCmpa), (.topTopr, .topTopr)] →
    ∀ ps oa ob v, prog (.initFast f ps oa ob v) = prog (.initPc c ps oa ob v)
      ∧ ∀ s, s.busy = false →
        ∃ t u, runCommand ((prog (.initFast f ps oa ob v)).length + 2) (.initFast f ps oa ob v) s
              = .next t
          ∧ runCommand ((prog (.initPc c ps oa ob v)).length + 2) (.initPc c ps oa ob v) s = .next u
          ∧ t.prf = u.prf ∧ t.trace = u.trace ∧ t.cfg = .fast ∧ u.cfg = .pc)
    ∧ ∀ w : CmdWord, w.extractLsb' 29 3 = 0 →
        w.extractLsb' 20 3 = 5 ∨ w.extractLsb' 20 3 = 6 →
        (w.extractLsb' 26 3 = 0 → decode w = .invalid .fastSubModeReserved)
          ∧ (w.extractLsb' 26 3 = 1 → ∃ i, decode w = .command i)

/-! ### The register loads -/

/-- R99, R100, R101: the three loads; `SET_CMPB` is the only operation that ever writes CMPB. -/
def Obligations.RegisterLoadVariants : Prop :=
  LoadVariant .setCmpa 0x08000000 .cmpa ∧ LoadVariant .setCmpb 0x0C000000 .cmpb
    ∧ LoadVariant .setTop 0x10000000 .topr
    ∧ ∀ i s t v, exec i s = .next t → t.trace = s.trace ++ [.write .tmc (.cmpb v)] → i = .setCmpb v

/-- R102: the source's example; a load never changes a register other than its own; two loads to
different registers commute, and of two loads to the same register the later one stays.
The spec marks R102 as its inference ("derived: from rules R99 to R101"). -/
def Obligations.LoadsIndependent : Prop :=
  (∀ s, s.busy = false → ∃ t u, runCommand 3 (.setCmpa 0x2ABC) s = .next t
      ∧ runCommand 3 (.setCmpb 0x0001) t = .next u ∧ u.prf.cmpa = 0x2ABC ∧ u.prf.cmpb = 0x0001)
    ∧ (∀ v s t, exec (.setCmpa v) s = .next t → t.prf = { s.prf with cmpa := t.prf.cmpa })
    ∧ (∀ v s t, exec (.setCmpb v) s = .next t → t.prf = { s.prf with cmpb := t.prf.cmpb })
    ∧ (∀ v s t, exec (.setTop v) s = .next t → t.prf = { s.prf with topr := t.prf.topr })
    ∧ ∀ mk mk' : Word16 → Instr, mk ∈ [Instr.setCmpa, .setCmpb, .setTop] →
        mk' ∈ [Instr.setCmpa, .setCmpb, .setTop] → ∀ v v' s, s.busy = false →
        ∃ t u x y, runCommand 3 (mk v) s = .next t ∧ runCommand 3 (mk' v') t = .next u
          ∧ runCommand 3 (mk' v') s = .next x ∧ runCommand 3 (mk v) x = .next y
          ∧ (mk ≠ mk' → u.prf = y.prf) ∧ (mk = mk' → u.prf = x.prf)

/-! ### Frames -/

/-- R25: a step with a command, if it answers a next state, touches only the registers of its row of
the access matrix, and its one transaction, if any, is a write of a register the row marks W or a
read of one it marks R. -/
def Obligations.AccessMatrix : Prop :=
  ∀ i s t, exec i s = .next t →
    (∀ r, r ∉ writable i → t.prf.read r = s.prf.read r)
      ∧ ((t.trace = s.trace ∧ t.prf = s.prf)
        ∨ (∃ v, v.reg ∈ writable i ∧ t.trace = s.trace ++ [.write .tmc v] ∧ t.prf = s.prf.write v)
        ∨ ∃ r, r ∈ readable i ∧ t.trace = s.trace ++ [.read .tmc (s.prf.read r)] ∧ t.prf = s.prf)

/-- R13 to R16, R26, R48: what a step with a command leaves alone besides the registers: the schedule
and the word on the port always; the latch, once accepted; `tmp` but in a read; `cfg` and the count of
`cmd_done` but in the completion; the register file in the acceptance and the completion. -/
def Obligations.SequencerFrame : Prop :=
  ∀ i s t, exec i s = .next t →
    t.sched = s.sched ∧ t.cmdWord = s.cmdWord
      ∧ (s.busy = true → t.cmd = s.cmd ∧ t.cmdValid = s.cmdValid)
      ∧ ((∀ c, (prog i)[s.upc]? ≠ some (.r c)) ∨ s.busy = false → t.tmp = s.tmp)
      ∧ (t.busy = true → t.cfg = s.cfg ∧ t.doneCount = s.doneCount)
      ∧ (s.busy = false ∨ t.busy = false → t.prf = s.prf ∧ t.trace = s.trace)

/-- R14: `upc` becomes 0 when a command is accepted, advances by exactly 1 with every transaction of
the TMC, and never moves otherwise, in a step that is no acceptance, whichever agent's turn it is. -/
def Obligations.UpcCountsTransactions : Prop :=
  ∀ s t, step s = .next t →
    (s.busy = false ∧ t.busy = true ∧ t.upc = 0 ∧ tmcEvents t.trace = tmcEvents s.trace)
      ∨ (s.busy = true ∧ t.busy = true ∧ t.upc = s.upc + 1
          ∧ ∃ e, tmcEvents t.trace = tmcEvents s.trace ++ [e])
      ∨ ((s.busy = false → t.busy = false) ∧ t.upc = s.upc
          ∧ tmcEvents t.trace = tmcEvents s.trace)

/-- R40: `Trace` only grows, by at most one event a step. -/
def Obligations.TraceOnlyGrows : Prop :=
  ∀ s t, step s = .next t → ∃ ev, t.trace = s.trace ++ ev ∧ ev.length ≤ 1

/-! ### Invariants -/

/-- R14, R16, R30, R42: every step of any agent keeps the invariant. -/
def Obligations.InvariantKept : Prop :=
  ∀ p s t, TmcInv p s → step s = .next t → TmcInv p t

/-- The invariant holds after reset, whatever the register contents are and whatever turns the run has. -/
def Obligations.InvariantAtReset : Prop :=
  (∀ p, TmcInv p (State.resetWith p)) ∧ TmcInv Prf.reset State.reset
    ∧ ∀ p turns, TmcInv p (startRun p turns)

/-! ### The other agents -/

/-- R33, R34, R42: a transaction of ENV is one step: a read returns the whole content and changes only
the history; a write replaces the whole content of one register and changes nothing else. -/
def Obligations.EnvTransactions : Prop :=
  (∀ s r rest, s.sched = .envRead r :: rest →
      step s = .next { s with trace := s.trace ++ [.read .env (s.prf.read r)], sched := rest })
    ∧ ∀ s v rest, s.sched = .envWrite v :: rest →
      ∃ t, step s = .next t ∧ t.prf.read v.reg = v
        ∧ (∀ r, r ≠ v.reg → t.prf.read r = s.prf.read r)
        ∧ t = { s with
            prf := t.prf, trace := s.trace ++ [.write .env v], sched := rest }

/-- R122: an ENV write to the merged register between the two halves of a merge is lost; one just
before the read half is merged by OR. No other register changes. -/
def Obligations.MergeWindow : Prop :=
  (∀ s c k u rest, s.busy = true → (prog s.cmd)[s.upc]? = some (.r c) →
      (prog s.cmd)[s.upc + 1]? = some (.wor c k) →
      s.sched = .tmc :: .envWrite (ctlVal c u) :: .tmc :: rest →
      ∃ t, run 3 s = .next t ∧ t.prf = s.prf.write (ctlVal c (s.prf.ctl c ||| k))
        ∧ t.upc = s.upc + 2)
    ∧ ∀ s c k u rest, s.busy = true → (prog s.cmd)[s.upc]? = some (.r c) →
      (prog s.cmd)[s.upc + 1]? = some (.wor c k) →
      s.sched = .envWrite (ctlVal c u) :: .tmc :: .tmc :: rest →
      ∃ t, run 3 s = .next t ∧ t.prf = s.prf.write (ctlVal c (u ||| k)) ∧ t.upc = s.upc + 2

/-- R48, R130: an offer and a withdrawal of the host change only the port (and leave the schedule), whether
the TMC is busy or not. The spec gives the signals and leaves two points open that this settles: an offer
replaces a word that still waits (the model's choice, log 12), and a word, an invalid one too, may be taken
away from an idle TMC (the model's choice, log 13). -/
def Obligations.HostTurns : Prop :=
  (∀ s w rest, s.sched = .hostOffer w :: rest →
      step s = .next { s with cmdValid := true, cmdWord := w, sched := rest })
    ∧ ∀ s rest, s.sched = .hostWithdraw :: rest →
      step s = .next { s with cmdValid := false, sched := rest }

/-- R130: a word offered while the TMC is busy is not sampled: the TMC's steps leave port and latch
alone. If the host takes it away before the running command is complete, it is never executed: for every
schedule `.hostOffer w :: before ++ .hostWithdraw :: after`, with anything in `before` and no offer in
`after`, if the command that was running at the offer is still running when the withdrawal's turn comes
(the state `m`), then in every later state the latch still holds that command, no other command has been
completed or is running, and the TMC has issued no more than that command's own transactions. Among the
turns in `before` there may be offers that replace the waiting word (the model's choice, log 12). -/
def Obligations.OfferWhileBusyWaits : Prop :=
  (∀ s t rest, s.busy = true → TmcNext s rest → step s = .next t →
      t.cmd = s.cmd ∧ t.cmdValid = s.cmdValid ∧ t.cmdWord = s.cmdWord)
    ∧ ∀ s w before after m, s.busy = true →
        s.sched = .hostOffer w :: (before ++ .hostWithdraw :: after) →
        (∀ w', .hostOffer w' ∉ after) →
        run (before.length + 1) s = .next m → m.doneCount = s.doneCount →
        ∀ k t, run k m = .next t →
          t.cmd = s.cmd
            ∧ (t.doneCount = s.doneCount ∧ t.busy = true
              ∨ t.doneCount = s.doneCount + 1 ∧ t.busy = false)
            ∧ (tmcEvents t.trace).length
              ≤ (tmcEvents s.trace).length + ((prog s.cmd).length - s.upc)

/-- R45: the running command does not see the port: when a busy TMC moves, changing what is offered
changes nothing of its step but the port itself. -/
def Obligations.PortUnseenWhileBusy : Prop :=
  ∀ s rest valid w, s.busy = true → TmcNext s rest →
    step { s with cmdValid := valid, cmdWord := w }
      = mapNext (fun t => { t with cmdValid := valid, cmdWord := w }) (step s)

/-- R45: when a busy TMC moves, its command, its operands and its place in the micro-program do not
depend on the registers. -/
def Obligations.RegistersNeverSteer : Prop :=
  ∀ s rest q, s.busy = true → TmcNext s rest →
    mapNext (fun t => { t with prf := q, tmp := 0, trace := [] }) (step { s with prf := q })
      = mapNext (fun t => { t with prf := q, tmp := 0, trace := [] }) (step s)

/-- R26, R28, R40: no rule reads the ghost `cfg` or the history: states that agree but for these two
step to states that agree but for these two. -/
def Obligations.GhostsNeverRead : Prop :=
  ∀ s cfg tr,
    mapNext (fun t => { t with cfg := .uninit, trace := [] })
        (step { s with cfg := cfg, trace := tr })
      = mapNext (fun t => { t with cfg := .uninit, trace := [] }) (step s)

/-- R15: nothing a command leaves in `cmd`, `upc`, `tmp` or `cfg` changes what a later command does:
from idle states with equal registers a command issues the same transactions and leaves the same
registers. -/
def Obligations.StatelessBetweenCommands : Prop :=
  ∀ i s s', s.busy = false → s'.busy = false → s.prf = s'.prf →
    ∃ t t' ev, runCommand ((prog i).length + 2) i s = .next t
      ∧ runCommand ((prog i).length + 2) i s' = .next t'
      ∧ t.prf = t'.prf ∧ t.trace = s.trace ++ ev ∧ t'.trace = s'.trace ++ ev

/-! ### Whole runs -/

/-- R42, R133: a step takes exactly the next turn of the schedule, so a run takes the turns in the order
in which the schedule lists them, whatever that order is (the schedule is the model's, log 3). -/
def Obligations.StepTakesNextTurn : Prop :=
  (∀ s t, step s = .next t → t.sched = s.sched.tail)
    ∧ ∀ p turns n t, run n (startRun p turns) = .next t → t.sched = turns.drop n

/-- R133: a busy state is never the end of a run, and neither is one in which a word is offered; once a
run is at its end it stays there: whatever turns are left, every further step answers a next state that
is at its end, and the TMC does nothing in it (an idle TMC to which nothing is offered waits, R104, R117).
That this waiting is a step is the model's reading (log 11), and so is what is on the port when a run is
at its end (log 4) and in the schedule (log 3). -/
def Obligations.RunEndIsFinal : Prop :=
  (∀ s, s.busy = true ∨ s.cmdValid = true → atEnd s = false)
    ∧ ∀ s n, atEnd s = true →
        ∃ t, run n s = .next t ∧ atEnd t = true ∧ tmcEvents t.trace = tmcEvents s.trace
          ∧ t.doneCount = s.doneCount ∧ t.cmd = s.cmd ∧ t.upc = s.upc ∧ t.cfg = s.cfg
          ∧ ∃ ev, t.trace = s.trace ++ ev ∧ (envWrites ev = [] → t.prf = s.prf)

/-- R133, R104: every run reaches its end, whatever the interleaving of the agents: from reset with any
`RESET_REGS` and any finite list of turns in which every word the host offers is valid, at most nineteen
steps more than there are turns (the rest of a running command and one more command). That an accepted
offer leaves the port is the model's choice (log 4), and so are the schedule (log 3) and that an offer
replaces a word that still waits (log 12). -/
def Obligations.RunReachesEnd : Prop :=
  ∀ (p : Prf) (turns : List Turn),
    (∀ w, .hostOffer w ∈ turns → ∃ i, decode w = .command i) →
    ∃ t, runToEnd (turns.length + 19) (startRun p turns) = .next t ∧ atEnd t = true

/-- R133: what a command sequence did. From reset with any `RESET_REGS`, when the host offers any list of
commands one after the other, each after the previous one has completed, and ENV does nothing, the run
reaches its end; the register file is then the one the commands' end states make up in their order, every
command has completed, and the Trace holds each command's transactions and no other. That an accepted
offer leaves the port is the model's choice (log 4), as is the schedule (log 3). -/
def Obligations.CommandSequenceEnd : Prop :=
  ∀ (p : Prf) (cs : List Instr),
    ∃ t, run (programTurns cs).length (startRun p (programTurns cs)) = .next t
      ∧ atEnd t = true
      ∧ t.prf = cs.foldl (fun q i => commandEnd i q) p
      ∧ t.doneCount = cs.length
      ∧ t.trace.length = (cs.map fun i => (prog i).length).sum
      ∧ tmcEvents t.trace = t.trace
end

