-- ==== Sys2Proof/Laws/Encoding.lean ====
section
/-! SUPPORT. Lemmas of the codec: the fields of a word and the word of its fields determine each
other, and the codes of the enumerations read back. -/

namespace Sys2Proof

@[simp] theorem Prescaler.ofCode_code (p : Prescaler) : Prescaler.ofCode p.code = p := by
  cases p <;> rfl

@[simp] theorem Prescaler.code_ofCode (c : BitVec 3) : (Prescaler.ofCode c).code = c := by
  revert c; decide

@[simp] theorem OutMode.ofCode_code (m : OutMode) : OutMode.ofCode m.code = m := by
  cases m <;> rfl

@[simp] theorem OutMode.code_ofCode (c : BitVec 2) : (OutMode.ofCode c).code = c := by
  revert c; decide

@[simp] theorem FastSub.ofCode?_code (m : FastSub) : FastSub.ofCode? m.code = some m := by
  cases m <;> rfl

@[simp] theorem PcSub.ofCode?_code (m : PcSub) : PcSub.ofCode? m.code = some m := by
  cases m <;> rfl

theorem FastSub.code_of_ofCode? {c : BitVec 3} {m : FastSub} (h : FastSub.ofCode? c = some m) :
    m.code = c := by
  revert c m; decide

theorem PcSub.code_of_ofCode? {c : BitVec 3} {m : PcSub} (h : PcSub.ofCode? c = some m) :
    m.code = c := by
  revert c m; decide

/-- The fields of the word with fields `f` are `f`. -/
@[simp] theorem fieldsOf_wordOf (f : CmdFields) : fieldsOf (wordOf f) = f := by
  obtain ⟨rsv, op, ps, sm, oa, ob, val⟩ := f
  simp only [fieldsOf, wordOf, CmdFields.mk.injEq]
  refine ⟨?_, ?_, ?_, ?_, ?_, ?_, ?_⟩ <;>
  · ext i hi
    simp only [BitVec.getElem_extractLsb', BitVec.getLsbD_or, BitVec.getLsbD_shiftLeft,
      BitVec.getLsbD_setWidth]
    interval_cases i <;> simp [BitVec.getLsbD_eq_getElem]

/-- A word is the word of its fields. -/
@[simp] theorem wordOf_fieldsOf (w : CmdWord) : wordOf (fieldsOf w) = w := by
  simp only [fieldsOf, wordOf]
  ext i hi
  interval_cases i <;> simp [BitVec.getLsbD_eq_getElem]

theorem fieldsOf_injective {w x : CmdWord} (h : fieldsOf w = fieldsOf x) : w = x := by
  rw [← wordOf_fieldsOf w, h, wordOf_fieldsOf]

/-- A mask acts on each field separately. -/
theorem fieldsOf_and (w x : CmdWord) :
    fieldsOf (w &&& x) =
      { rsv := (fieldsOf w).rsv &&& (fieldsOf x).rsv
        op := (fieldsOf w).op &&& (fieldsOf x).op
        ps := (fieldsOf w).ps &&& (fieldsOf x).ps
        sm := (fieldsOf w).sm &&& (fieldsOf x).sm
        oa := (fieldsOf w).oa &&& (fieldsOf x).oa
        ob := (fieldsOf w).ob &&& (fieldsOf x).ob
        val := (fieldsOf w).val &&& (fieldsOf x).val } := by
  simp only [fieldsOf, BitVec.extractLsb'_and]

/-- The fields of an encoded command. -/
@[simp] theorem fieldsOf_encode (i : Instr) : fieldsOf (encode i) = i.fields :=
  fieldsOf_wordOf _

end Sys2Proof
end

