-- ==== Sys2Proof/Laws/Operands.lean ====
section
/-! SUPPORT. The encoders with the field positions this model runs with (the numbers of R66, R70 and
R71), and the shape of the micro-programs. -/

namespace Sys2Proof.Machine

theorem modeReg_cra (m : ModeBits) :
    modeReg Config.layout .cra m
      = (BitVec.ofBool m.mid).setWidth 8 <<< 1 ||| (BitVec.ofBool m.low).setWidth 8 := by
  obtain ⟨l, md, h⟩ := m
  cases l <;> cases md <;> cases h <;> rfl

theorem modeReg_crb (m : ModeBits) :
    modeReg Config.layout .crb m = (BitVec.ofBool m.high).setWidth 8 <<< 4 := by
  obtain ⟨l, md, h⟩ := m
  cases l <;> cases md <;> cases h <;> rfl

theorem outBits_layout (oa ob : OutMode) :
    outBits Config.layout oa ob = oa.code.setWidth 8 <<< 6 ||| ob.code.setWidth 8 <<< 4 := rfl

theorem csBits_layout (ps : Prescaler) :
    csBits Config.layout ps = ps.code.setWidth 8 := by
  cases ps <;> rfl

theorem prog_init (m : InitMode) (ps : Prescaler) (oa ob : OutMode) (v : Word16) :
    prog (.init m ps oa ob v) = initProgram m ps oa ob v := by
  rcases m with sm | sm <;> cases sm <;> rfl

/-- An initialisation has 7 transactions, or 8 when a top value is written (R65). -/
theorem initProgram_length (m : InitMode) (ps : Prescaler) (oa ob : OutMode) (v : Word16) :
    (initProgram m ps oa ob v).length = if topDest m = none then 7 else 8 := by
  rcases m with sm | sm <;> cases sm <;> rfl

/-- Every command is an initialisation or one of the three loads. -/
theorem Instr.init_or_load (i : Instr) :
    (∃ m ps oa ob v, i = .init m ps oa ob v) ∨ (∃ v, i = .setCmpa v) ∨ (∃ v, i = .setCmpb v)
      ∨ ∃ v, i = .setTop v := by
  cases i with
  | initFastBit8 ps oa ob v => exact .inl ⟨.fast .bit8, ps, oa, ob, v, rfl⟩
  | initFastBit9 ps oa ob v => exact .inl ⟨.fast .bit9, ps, oa, ob, v, rfl⟩
  | initFastBit10 ps oa ob v => exact .inl ⟨.fast .bit10, ps, oa, ob, v, rfl⟩
  | initFastTopCmpa ps oa ob v => exact .inl ⟨.fast .topCmpa, ps, oa, ob, v, rfl⟩
  | initFastTopTopr ps oa ob v => exact .inl ⟨.fast .topTopr, ps, oa, ob, v, rfl⟩
  | initPcBit8 ps oa ob v => exact .inl ⟨.pc .bit8, ps, oa, ob, v, rfl⟩
  | initPcBit9 ps oa ob v => exact .inl ⟨.pc .bit9, ps, oa, ob, v, rfl⟩
  | initPcBit10 ps oa ob v => exact .inl ⟨.pc .bit10, ps, oa, ob, v, rfl⟩
  | initPcTopCmpa ps oa ob v => exact .inl ⟨.pc .topCmpa, ps, oa, ob, v, rfl⟩
  | initPcTopTopr ps oa ob v => exact .inl ⟨.pc .topTopr, ps, oa, ob, v, rfl⟩
  | initPcFcTopCmpa ps oa ob v => exact .inl ⟨.pc .fcTopCmpa, ps, oa, ob, v, rfl⟩
  | initPcFcTopTopr ps oa ob v => exact .inl ⟨.pc .fcTopTopr, ps, oa, ob, v, rfl⟩
  | setCmpa v => exact .inr (.inl ⟨v, rfl⟩)
  | setCmpb v => exact .inr (.inr (.inl ⟨v, rfl⟩))
  | setTop v => exact .inr (.inr (.inr ⟨v, rfl⟩))

end Sys2Proof.Machine
end

