-- ==== Sys2Proof/Laws/PerInstr.lean ====
section
/-! SUPPORT. Statements made per instruction. `Pattern`: the encoded word of a command matches the
`mask` and `match` of its row of spec/opcode_table.json (R63), and its fields pass every check of R56. -/

namespace Sys2Proof

/-- The `mask` of a command's row of the opcode table (R63). -/
def opcodeMask : Instr → CmdWord
  | .setCmpa _ | .setCmpb _ | .setTop _ => 0xFFFF0000
  | .initFastBit8 .. | .initFastBit9 .. | .initFastBit10 .. | .initFastTopCmpa ..
  | .initFastTopTopr .. | .initPcBit8 .. | .initPcBit9 .. | .initPcBit10 .. | .initPcTopCmpa ..
  | .initPcTopTopr .. | .initPcFcTopCmpa .. | .initPcFcTopTopr .. => 0xFC700000

/-- The `match` of a command's row of the opcode table (R63). -/
def opcodeMatch : Instr → CmdWord
  | .initFastBit8 .. => 0x00000000
  | .initFastBit9 .. => 0x00100000
  | .initFastBit10 .. => 0x00200000
  | .initFastTopCmpa .. => 0x00300000
  | .initFastTopTopr .. => 0x00400000
  | .initPcBit8 .. => 0x04000000
  | .initPcBit9 .. => 0x04100000
  | .initPcBit10 .. => 0x04200000
  | .initPcTopCmpa .. => 0x04300000
  | .initPcTopTopr .. => 0x04400000
  | .initPcFcTopCmpa .. => 0x04500000
  | .initPcFcTopTopr .. => 0x04600000
  | .setCmpa _ => 0x08000000
  | .setCmpb _ => 0x0C000000
  | .setTop _ => 0x10000000

/-- The fields of the two masks. -/
theorem fieldsOf_initMask : fieldsOf 0xFC700000#32 = ⟨7, 7, 0, 7, 0, 0, 0⟩ := by decide

theorem fieldsOf_loadMask : fieldsOf 0xFFFF0000#32 = ⟨7, 7, 7, 7, 3, 3, 0⟩ := by decide

/-- The mask of the INIT rows keeps `rsv`, `op` and `sm`. -/
theorem initMask_wordOf (op sm : BitVec 3) (ps : Prescaler) (oa ob : OutMode) (v : Word16) :
    wordOf (initFields op sm ps oa ob v) &&& 0xFC700000#32 = wordOf ⟨0, op, 0, sm, 0, 0, 0⟩ := by
  have h7 : ∀ x : BitVec 3, x &&& 7#3 = x := by decide
  apply fieldsOf_injective
  rw [fieldsOf_and, fieldsOf_initMask, fieldsOf_wordOf, fieldsOf_wordOf]
  simp [initFields, h7]

/-- The mask of the SET rows keeps everything but `val`. -/
theorem loadMask_wordOf (op : BitVec 3) (v : Word16) :
    wordOf (loadFields op v) &&& 0xFFFF0000#32 = wordOf ⟨0, op, 0, 0, 0, 0, 0⟩ := by
  have h7 : ∀ x : BitVec 3, x &&& 7#3 = x := by decide
  apply fieldsOf_injective
  rw [fieldsOf_and, fieldsOf_loadMask, fieldsOf_wordOf, fieldsOf_wordOf]
  simp [loadFields, h7]

/-- A command's word matches its row of the opcode table, and its fields are well formed. -/
def Laws.Pattern.Statement (i : Instr) : Prop :=
  encode i &&& opcodeMask i = opcodeMatch i ∧ i.fields.wellFormed = true

namespace Laws.Pattern

theorem initFastBit8 (ps : Prescaler) (oa ob : OutMode) (val : Word16) :
    Statement (.initFastBit8 ps oa ob val) :=
  ⟨(initMask_wordOf _ _ ps oa ob val).trans rfl, rfl⟩

theorem initFastBit9 (ps : Prescaler) (oa ob : OutMode) (val : Word16) :
    Statement (.initFastBit9 ps oa ob val) :=
  ⟨(initMask_wordOf _ _ ps oa ob val).trans rfl, rfl⟩

theorem initFastBit10 (ps : Prescaler) (oa ob : OutMode) (val : Word16) :
    Statement (.initFastBit10 ps oa ob val) :=
  ⟨(initMask_wordOf _ _ ps oa ob val).trans rfl, rfl⟩

theorem initFastTopCmpa (ps : Prescaler) (oa ob : OutMode) (val : Word16) :
    Statement (.initFastTopCmpa ps oa ob val) :=
  ⟨(initMask_wordOf _ _ ps oa ob val).trans rfl, rfl⟩

theorem initFastTopTopr (ps : Prescaler) (oa ob : OutMode) (val : Word16) :
    Statement (.initFastTopTopr ps oa ob val) :=
  ⟨(initMask_wordOf _ _ ps oa ob val).trans rfl, rfl⟩

theorem initPcBit8 (ps : Prescaler) (oa ob : OutMode) (val : Word16) :
    Statement (.initPcBit8 ps oa ob val) :=
  ⟨(initMask_wordOf _ _ ps oa ob val).trans rfl, rfl⟩

theorem initPcBit9 (ps : Prescaler) (oa ob : OutMode) (val : Word16) :
    Statement (.initPcBit9 ps oa ob val) :=
  ⟨(initMask_wordOf _ _ ps oa ob val).trans rfl, rfl⟩

theorem initPcBit10 (ps : Prescaler) (oa ob : OutMode) (val : Word16) :
    Statement (.initPcBit10 ps oa ob val) :=
  ⟨(initMask_wordOf _ _ ps oa ob val).trans rfl, rfl⟩

theorem initPcTopCmpa (ps : Prescaler) (oa ob : OutMode) (val : Word16) :
    Statement (.initPcTopCmpa ps oa ob val) :=
  ⟨(initMask_wordOf _ _ ps oa ob val).trans rfl, rfl⟩

theorem initPcTopTopr (ps : Prescaler) (oa ob : OutMode) (val : Word16) :
    Statement (.initPcTopTopr ps oa ob val) :=
  ⟨(initMask_wordOf _ _ ps oa ob val).trans rfl, rfl⟩

theorem initPcFcTopCmpa (ps : Prescaler) (oa ob : OutMode) (val : Word16) :
    Statement (.initPcFcTopCmpa ps oa ob val) :=
  ⟨(initMask_wordOf _ _ ps oa ob val).trans rfl, rfl⟩

theorem initPcFcTopTopr (ps : Prescaler) (oa ob : OutMode) (val : Word16) :
    Statement (.initPcFcTopTopr ps oa ob val) :=
  ⟨(initMask_wordOf _ _ ps oa ob val).trans rfl, rfl⟩

theorem setCmpa (val : Word16) : Statement (.setCmpa val) :=
  ⟨(loadMask_wordOf _ val).trans rfl, rfl⟩

theorem setCmpb (val : Word16) : Statement (.setCmpb val) :=
  ⟨(loadMask_wordOf _ val).trans rfl, rfl⟩

theorem setTop (val : Word16) : Statement (.setTop val) :=
  ⟨(loadMask_wordOf _ val).trans rfl, rfl⟩

end Laws.Pattern

end Sys2Proof
end

