-- ==== Sys2Proof/Laws/State.lean ====
section
/-! SUPPORT. What each named update of the state does to each field, by `rfl` and tagged `@[simp]`,
so that no proof unfolds a record update. -/

namespace Sys2Proof.Machine

section setBusy
variable (s : State)
@[simp] theorem setBusy_prf : (setBusy s).prf = s.prf := rfl
@[simp] theorem setBusy_busy : (setBusy s).busy = true := rfl
@[simp] theorem setBusy_cmd : (setBusy s).cmd = s.cmd := rfl
@[simp] theorem setBusy_upc : (setBusy s).upc = s.upc := rfl
@[simp] theorem setBusy_tmp : (setBusy s).tmp = s.tmp := rfl
@[simp] theorem setBusy_cfg : (setBusy s).cfg = s.cfg := rfl
@[simp] theorem setBusy_trace : (setBusy s).trace = s.trace := rfl
@[simp] theorem setBusy_cmdValid : (setBusy s).cmdValid = s.cmdValid := rfl
@[simp] theorem setBusy_cmdWord : (setBusy s).cmdWord = s.cmdWord := rfl
@[simp] theorem setBusy_doneCount : (setBusy s).doneCount = s.doneCount := rfl
@[simp] theorem setBusy_sched : (setBusy s).sched = s.sched := rfl
end setBusy

section raiseDone
variable (s : State)
@[simp] theorem raiseDone_prf : (raiseDone s).prf = s.prf := rfl
@[simp] theorem raiseDone_busy : (raiseDone s).busy = false := rfl
@[simp] theorem raiseDone_cmd : (raiseDone s).cmd = s.cmd := rfl
@[simp] theorem raiseDone_upc : (raiseDone s).upc = s.upc := rfl
@[simp] theorem raiseDone_tmp : (raiseDone s).tmp = s.tmp := rfl
@[simp] theorem raiseDone_cfg : (raiseDone s).cfg = s.cfg := rfl
@[simp] theorem raiseDone_trace : (raiseDone s).trace = s.trace := rfl
@[simp] theorem raiseDone_cmdValid : (raiseDone s).cmdValid = s.cmdValid := rfl
@[simp] theorem raiseDone_cmdWord : (raiseDone s).cmdWord = s.cmdWord := rfl
@[simp] theorem raiseDone_doneCount : (raiseDone s).doneCount = s.doneCount + 1 := rfl
@[simp] theorem raiseDone_sched : (raiseDone s).sched = s.sched := rfl
end raiseDone

section regRead
variable (a : Agent) (r : RegId) (s : State)
@[simp] theorem regRead_prf : (regRead a r s).prf = s.prf := rfl
@[simp] theorem regRead_busy : (regRead a r s).busy = s.busy := rfl
@[simp] theorem regRead_cmd : (regRead a r s).cmd = s.cmd := rfl
@[simp] theorem regRead_upc : (regRead a r s).upc = s.upc := rfl
@[simp] theorem regRead_tmp : (regRead a r s).tmp = s.tmp := rfl
@[simp] theorem regRead_cfg : (regRead a r s).cfg = s.cfg := rfl
@[simp] theorem regRead_trace : (regRead a r s).trace = s.trace ++ [.read a (s.prf.read r)] := rfl
@[simp] theorem regRead_cmdValid : (regRead a r s).cmdValid = s.cmdValid := rfl
@[simp] theorem regRead_cmdWord : (regRead a r s).cmdWord = s.cmdWord := rfl
@[simp] theorem regRead_doneCount : (regRead a r s).doneCount = s.doneCount := rfl
@[simp] theorem regRead_sched : (regRead a r s).sched = s.sched := rfl
end regRead

section regWrite
variable (a : Agent) (v : RegVal) (s : State)
@[simp] theorem regWrite_prf : (regWrite a v s).prf = s.prf.write v := rfl
@[simp] theorem regWrite_busy : (regWrite a v s).busy = s.busy := rfl
@[simp] theorem regWrite_cmd : (regWrite a v s).cmd = s.cmd := rfl
@[simp] theorem regWrite_upc : (regWrite a v s).upc = s.upc := rfl
@[simp] theorem regWrite_tmp : (regWrite a v s).tmp = s.tmp := rfl
@[simp] theorem regWrite_cfg : (regWrite a v s).cfg = s.cfg := rfl
@[simp] theorem regWrite_trace : (regWrite a v s).trace = s.trace ++ [.write a v] := rfl
@[simp] theorem regWrite_cmdValid : (regWrite a v s).cmdValid = s.cmdValid := rfl
@[simp] theorem regWrite_cmdWord : (regWrite a v s).cmdWord = s.cmdWord := rfl
@[simp] theorem regWrite_doneCount : (regWrite a v s).doneCount = s.doneCount := rfl
@[simp] theorem regWrite_sched : (regWrite a v s).sched = s.sched := rfl
end regWrite

section latchRead
variable (c : CtlReg) (s : State)
@[simp] theorem latchRead_prf : (latchRead c s).prf = s.prf := rfl
@[simp] theorem latchRead_busy : (latchRead c s).busy = s.busy := rfl
@[simp] theorem latchRead_cmd : (latchRead c s).cmd = s.cmd := rfl
@[simp] theorem latchRead_upc : (latchRead c s).upc = s.upc := rfl
@[simp] theorem latchRead_tmp : (latchRead c s).tmp = s.prf.ctl c := rfl
@[simp] theorem latchRead_cfg : (latchRead c s).cfg = s.cfg := rfl
@[simp] theorem latchRead_trace : (latchRead c s).trace = s.trace ++ [.read .tmc (s.prf.read c.id)] := rfl
@[simp] theorem latchRead_cmdValid : (latchRead c s).cmdValid = s.cmdValid := rfl
@[simp] theorem latchRead_cmdWord : (latchRead c s).cmdWord = s.cmdWord := rfl
@[simp] theorem latchRead_doneCount : (latchRead c s).doneCount = s.doneCount := rfl
@[simp] theorem latchRead_sched : (latchRead c s).sched = s.sched := rfl
end latchRead

section advance
variable (s : State)
@[simp] theorem advance_prf : (advance s).prf = s.prf := rfl
@[simp] theorem advance_busy : (advance s).busy = s.busy := rfl
@[simp] theorem advance_cmd : (advance s).cmd = s.cmd := rfl
@[simp] theorem advance_upc : (advance s).upc = s.upc + 1 := rfl
@[simp] theorem advance_tmp : (advance s).tmp = s.tmp := rfl
@[simp] theorem advance_cfg : (advance s).cfg = s.cfg := rfl
@[simp] theorem advance_trace : (advance s).trace = s.trace := rfl
@[simp] theorem advance_cmdValid : (advance s).cmdValid = s.cmdValid := rfl
@[simp] theorem advance_cmdWord : (advance s).cmdWord = s.cmdWord := rfl
@[simp] theorem advance_doneCount : (advance s).doneCount = s.doneCount := rfl
@[simp] theorem advance_sched : (advance s).sched = s.sched := rfl
end advance

section accept
variable (i : Instr) (s : State)
@[simp] theorem accept_prf : (accept i s).prf = s.prf := rfl
@[simp] theorem accept_busy : (accept i s).busy = true := rfl
@[simp] theorem accept_cmd : (accept i s).cmd = i := rfl
@[simp] theorem accept_upc : (accept i s).upc = 0 := rfl
@[simp] theorem accept_tmp : (accept i s).tmp = s.tmp := rfl
@[simp] theorem accept_cfg : (accept i s).cfg = s.cfg := rfl
@[simp] theorem accept_trace : (accept i s).trace = s.trace := rfl
@[simp] theorem accept_cmdValid : (accept i s).cmdValid = false := rfl
@[simp] theorem accept_cmdWord : (accept i s).cmdWord = s.cmdWord := rfl
@[simp] theorem accept_doneCount : (accept i s).doneCount = s.doneCount := rfl
@[simp] theorem accept_sched : (accept i s).sched = s.sched := rfl
end accept

section complete
variable (f : Option Cfg) (s : State)
@[simp] theorem complete_prf : (complete f s).prf = s.prf := rfl
@[simp] theorem complete_busy : (complete f s).busy = false := rfl
@[simp] theorem complete_cmd : (complete f s).cmd = s.cmd := rfl
@[simp] theorem complete_upc : (complete f s).upc = s.upc := rfl
@[simp] theorem complete_tmp : (complete f s).tmp = s.tmp := rfl
@[simp] theorem complete_cfg : (complete f s).cfg = f.getD s.cfg := rfl
@[simp] theorem complete_trace : (complete f s).trace = s.trace := rfl
@[simp] theorem complete_cmdValid : (complete f s).cmdValid = s.cmdValid := rfl
@[simp] theorem complete_cmdWord : (complete f s).cmdWord = s.cmdWord := rfl
@[simp] theorem complete_doneCount : (complete f s).doneCount = s.doneCount + 1 := rfl
@[simp] theorem complete_sched : (complete f s).sched = s.sched := rfl
end complete

section hostOffer
variable (w : CmdWord) (s : State)
@[simp] theorem hostOffer_prf : (hostOffer w s).prf = s.prf := rfl
@[simp] theorem hostOffer_busy : (hostOffer w s).busy = s.busy := rfl
@[simp] theorem hostOffer_cmd : (hostOffer w s).cmd = s.cmd := rfl
@[simp] theorem hostOffer_upc : (hostOffer w s).upc = s.upc := rfl
@[simp] theorem hostOffer_tmp : (hostOffer w s).tmp = s.tmp := rfl
@[simp] theorem hostOffer_cfg : (hostOffer w s).cfg = s.cfg := rfl
@[simp] theorem hostOffer_trace : (hostOffer w s).trace = s.trace := rfl
@[simp] theorem hostOffer_cmdValid : (hostOffer w s).cmdValid = true := rfl
@[simp] theorem hostOffer_cmdWord : (hostOffer w s).cmdWord = w := rfl
@[simp] theorem hostOffer_doneCount : (hostOffer w s).doneCount = s.doneCount := rfl
@[simp] theorem hostOffer_sched : (hostOffer w s).sched = s.sched := rfl
end hostOffer

section hostWithdraw
variable (s : State)
@[simp] theorem hostWithdraw_prf : (hostWithdraw s).prf = s.prf := rfl
@[simp] theorem hostWithdraw_busy : (hostWithdraw s).busy = s.busy := rfl
@[simp] theorem hostWithdraw_cmd : (hostWithdraw s).cmd = s.cmd := rfl
@[simp] theorem hostWithdraw_upc : (hostWithdraw s).upc = s.upc := rfl
@[simp] theorem hostWithdraw_tmp : (hostWithdraw s).tmp = s.tmp := rfl
@[simp] theorem hostWithdraw_cfg : (hostWithdraw s).cfg = s.cfg := rfl
@[simp] theorem hostWithdraw_trace : (hostWithdraw s).trace = s.trace := rfl
@[simp] theorem hostWithdraw_cmdValid : (hostWithdraw s).cmdValid = false := rfl
@[simp] theorem hostWithdraw_cmdWord : (hostWithdraw s).cmdWord = s.cmdWord := rfl
@[simp] theorem hostWithdraw_doneCount : (hostWithdraw s).doneCount = s.doneCount := rfl
@[simp] theorem hostWithdraw_sched : (hostWithdraw s).sched = s.sched := rfl
end hostWithdraw

section placeCommand
variable (w : CmdWord) (s : State)
@[simp] theorem placeCommand_prf : (placeCommand w s).prf = s.prf := rfl
@[simp] theorem placeCommand_busy : (placeCommand w s).busy = false := rfl
@[simp] theorem placeCommand_cmd : (placeCommand w s).cmd = s.cmd := rfl
@[simp] theorem placeCommand_upc : (placeCommand w s).upc = s.upc := rfl
@[simp] theorem placeCommand_tmp : (placeCommand w s).tmp = s.tmp := rfl
@[simp] theorem placeCommand_cfg : (placeCommand w s).cfg = s.cfg := rfl
@[simp] theorem placeCommand_trace : (placeCommand w s).trace = s.trace := rfl
@[simp] theorem placeCommand_cmdValid : (placeCommand w s).cmdValid = true := rfl
@[simp] theorem placeCommand_cmdWord : (placeCommand w s).cmdWord = w := rfl
@[simp] theorem placeCommand_doneCount : (placeCommand w s).doneCount = s.doneCount := rfl
@[simp] theorem placeCommand_sched : (placeCommand w s).sched = [] := rfl
end placeCommand

section reset
variable (p : Prf)
@[simp] theorem resetWith_prf : (State.resetWith p).prf = p := rfl
@[simp] theorem resetWith_busy : (State.resetWith p).busy = false := rfl
@[simp] theorem resetWith_cmd : (State.resetWith p).cmd = .initFastBit8 .stop .disc .disc 0 := rfl
@[simp] theorem resetWith_upc : (State.resetWith p).upc = 0 := rfl
@[simp] theorem resetWith_tmp : (State.resetWith p).tmp = 0 := rfl
@[simp] theorem resetWith_cfg : (State.resetWith p).cfg = .uninit := rfl
@[simp] theorem resetWith_trace : (State.resetWith p).trace = [] := rfl
@[simp] theorem resetWith_cmdValid : (State.resetWith p).cmdValid = false := rfl
@[simp] theorem resetWith_cmdWord : (State.resetWith p).cmdWord = 0 := rfl
@[simp] theorem resetWith_doneCount : (State.resetWith p).doneCount = 0 := rfl
@[simp] theorem resetWith_sched : (State.resetWith p).sched = [] := rfl
end reset

section startRun
variable (p : Prf) (ts : List Turn)
@[simp] theorem startRun_prf : (startRun p ts).prf = p := rfl
@[simp] theorem startRun_busy : (startRun p ts).busy = false := rfl
@[simp] theorem startRun_cmd : (startRun p ts).cmd = .initFastBit8 .stop .disc .disc 0 := rfl
@[simp] theorem startRun_upc : (startRun p ts).upc = 0 := rfl
@[simp] theorem startRun_tmp : (startRun p ts).tmp = 0 := rfl
@[simp] theorem startRun_cfg : (startRun p ts).cfg = .uninit := rfl
@[simp] theorem startRun_trace : (startRun p ts).trace = [] := rfl
@[simp] theorem startRun_cmdValid : (startRun p ts).cmdValid = false := rfl
@[simp] theorem startRun_cmdWord : (startRun p ts).cmdWord = 0 := rfl
@[simp] theorem startRun_doneCount : (startRun p ts).doneCount = 0 := rfl
@[simp] theorem startRun_sched : (startRun p ts).sched = ts := rfl
end startRun

/-- The end of a run, clause by clause. -/
theorem atEnd_iff (s : State) :
    atEnd s = true ↔ s.busy = false ∧ s.cmdValid = false ∧ ∀ w, .hostOffer w ∉ s.sched := by
  have key : s.sched.any Turn.isOffer = false ↔ ∀ w, .hostOffer w ∉ s.sched := by
    rw [List.any_eq_false]
    constructor
    · intro h w hw
      exact h _ hw rfl
    · intro h t ht
      cases t <;> simp_all [Turn.isOffer]
  simp [atEnd, hostHasMore, key]

end Sys2Proof.Machine
end

