-- ==== Sys2Proof/Laws/Registers.lean ====
section
/-! SUPPORT. Lemmas of the register file: a read after a write, and what a write leaves alone (R30,
R34). -/

namespace Sys2Proof.Machine

@[simp] theorem Prf.read_reg (p : Prf) (r : RegId) : (p.read r).reg = r := by
  cases r <;> rfl

@[simp] theorem ctlVal_reg (c : CtlReg) (v : Byte) : (ctlVal c v).reg = c.id := by
  cases c <;> rfl

theorem Prf.read_id (p : Prf) (c : CtlReg) : p.read c.id = ctlVal c (p.ctl c) := by
  cases c <;> rfl

@[simp] theorem TopDest.val_reg (d : TopDest) (v : Word16) :
    (d.val v).reg = (match d with | .cmpa => RegId.cmpa | .topr => RegId.topr) := by
  cases d <;> rfl

/-- A register reads as the value last written to it. -/
@[simp] theorem Prf.read_write_same (p : Prf) (v : RegVal) : (p.write v).read v.reg = v := by
  cases v <;> rfl

/-- A write leaves every other register alone. -/
theorem Prf.read_write_other (p : Prf) (v : RegVal) {r : RegId} (h : r ≠ v.reg) :
    (p.write v).read r = p.read r := by
  cases v <;> cases r <;> first | rfl | exact absurd rfl h

/-- Two register files that read alike are equal. -/
theorem Prf.ext_read {p q : Prf} (h : ∀ r, p.read r = q.read r) : p = q := by
  cases p; cases q
  have hc := h .cnt
  have ha := h .cra
  have hb := h .crb
  have ht := h .topr
  have hx := h .cmpa
  have hy := h .cmpb
  simp_all [Prf.read]

/-- Later writes to one register replace earlier ones. -/
theorem Prf.write_write_same (p : Prf) {v u : RegVal} (h : u.reg = v.reg) :
    (p.write v).write u = p.write u := by
  cases v <;> cases u <;> first | rfl | cases h

/-- Writes to different registers commute. -/
theorem Prf.write_comm (p : Prf) {v u : RegVal} (h : u.reg ≠ v.reg) :
    (p.write v).write u = (p.write u).write v := by
  cases v <;> cases u <;> first | rfl | exact absurd rfl h

/-- An address map selects the register it maps there, and no other. -/
theorem busSelect_addr (a : AddrMap) (r : RegId) : busSelect a (a.addr r) = some r := by
  have h : ∀ q, (a.addr q == a.addr r) = decide (q = r) := fun q => by
    by_cases e : q = r
    · simp [e]
    · simpa [e] using fun x => e (a.injective q r x)
  simp only [busSelect, RegId.all, h]
  cases r <;> rfl

end Sys2Proof.Machine
end

