-- ==== Sys2Proof/Laws/Sequencer.lean ====
section
/-! SUPPORT. What the shared operations can do, said once: every meaning is a call of `sequencer`, a
micro-operation is one transaction of the TMC, and a step of the machine is one of six turns. -/

namespace Sys2Proof.Machine

/-- Every meaning is the sequencer's step with the command's micro-program (R65). -/
theorem exec_eq_sequencer (i : Instr) (s : State) : exec i s = sequencer i (prog i) (family i) s := by
  cases i <;> rfl

/-! ### A micro-operation: one transaction and nothing of the sequencer -/

/-- A micro-operation appends exactly one event, of the TMC. -/
theorem microOp_trace (m : MicroOp) (s : State) :
    ∃ e : Event, (microOp m s).trace = s.trace ++ [e]
      ∧ (e = .read .tmc (s.prf.read .cra) ∨ e = .read .tmc (s.prf.read .crb)
        ∨ ∃ v, e = .write .tmc v) := by
  cases m with
  | w v => exact ⟨_, rfl, .inr (.inr ⟨v, rfl⟩)⟩
  | r c => cases c <;> exact ⟨_, rfl, by simp [CtlReg.id]⟩
  | wor c k => exact ⟨_, rfl, .inr (.inr ⟨_, rfl⟩)⟩

section microOp
variable (m : MicroOp) (s : State)
@[simp] theorem microOp_busy : (microOp m s).busy = s.busy := by cases m <;> rfl
@[simp] theorem microOp_cmd : (microOp m s).cmd = s.cmd := by cases m <;> rfl
@[simp] theorem microOp_upc : (microOp m s).upc = s.upc := by cases m <;> rfl
@[simp] theorem microOp_cfg : (microOp m s).cfg = s.cfg := by cases m <;> rfl
@[simp] theorem microOp_cmdValid : (microOp m s).cmdValid = s.cmdValid := by cases m <;> rfl
@[simp] theorem microOp_cmdWord : (microOp m s).cmdWord = s.cmdWord := by cases m <;> rfl
@[simp] theorem microOp_doneCount : (microOp m s).doneCount = s.doneCount := by cases m <;> rfl
@[simp] theorem microOp_sched : (microOp m s).sched = s.sched := by cases m <;> rfl
end microOp

/-! ### The sequencer -/

/-- An idle TMC accepts the command. -/
theorem sequencer_idle {i : Instr} {p : List MicroOp} {f : Option Cfg} {s : State}
    (h : s.busy = false) : sequencer i p f s = .next (accept i s) := by
  simp [sequencer, h]

/-- A busy TMC inside its program issues the next transaction. -/
theorem sequencer_micro {i : Instr} {p : List MicroOp} {f : Option Cfg} {s : State} {m : MicroOp}
    (h : s.busy = true) (hm : p[s.upc]? = some m) :
    sequencer i p f s = .next (microStep m s) := by
  simp [sequencer, h, hm]

/-- A busy TMC at the end of its program completes the command. -/
theorem sequencer_complete {i : Instr} {p : List MicroOp} {f : Option Cfg} {s : State}
    (h : s.busy = true) (hu : s.upc = p.length) :
    sequencer i p f s = .next (complete f s) := by
  simp [sequencer, h, hu]

/-- Everything the sequencer can do. -/
theorem sequencer_cases (i : Instr) (p : List MicroOp) (f : Option Cfg) (s : State) :
    (s.busy = false ∧ sequencer i p f s = .next (accept i s))
      ∨ (s.busy = true ∧ ∃ m, p[s.upc]? = some m ∧ sequencer i p f s = .next (microStep m s))
      ∨ (s.busy = true ∧ s.upc = p.length ∧ sequencer i p f s = .next (complete f s))
      ∨ (s.busy = true ∧ p.length < s.upc ∧ sequencer i p f s = .fault .sequencerStuck) := by
  cases hb : s.busy with
  | false => exact .inl ⟨rfl, sequencer_idle hb⟩
  | true =>
    cases hm : p[s.upc]? with
    | some m => exact .inr (.inl ⟨rfl, m, rfl, sequencer_micro hb hm⟩)
    | none =>
      have hle : p.length ≤ s.upc := List.getElem?_eq_none_iff.mp hm
      rcases Nat.lt_or_eq_of_le hle with h | h
      · exact .inr (.inr (.inr ⟨rfl, h, by simp [sequencer, hb, hm, Nat.ne_of_gt h]⟩))
      · exact .inr (.inr (.inl ⟨rfl, h.symm, sequencer_complete hb h.symm⟩))

/-! ### The TMC's turn and the machine's step -/

/-- Everything the TMC's turn can do. -/
theorem tmcTurn_cases (s : State) :
    (s.busy = true ∧ tmcTurn s = exec s.cmd s)
      ∨ (s.busy = false ∧ s.cmdValid = false ∧ tmcTurn s = .next s)
      ∨ (s.busy = false ∧ s.cmdValid = true ∧ ∃ i, decode s.cmdWord = .command i
          ∧ tmcTurn s = exec i s)
      ∨ (s.busy = false ∧ s.cmdValid = true ∧ ∃ why, decode s.cmdWord = .invalid why
          ∧ tmcTurn s = .refused (.invalidCommand why)) := by
  cases hb : s.busy with
  | true => exact .inl ⟨rfl, by simp [tmcTurn, fetch, hb]⟩
  | false =>
    cases hv : s.cmdValid with
    | false => exact .inr (.inl ⟨rfl, rfl, by simp [tmcTurn, fetch, hb, hv]⟩)
    | true =>
      cases hd : decode s.cmdWord with
      | command i =>
        exact .inr (.inr (.inl ⟨rfl, rfl, i, rfl, by simp [tmcTurn, fetch, hb, hv, hd]⟩))
      | invalid why =>
        exact .inr (.inr (.inr ⟨rfl, rfl, why, rfl, by simp [tmcTurn, fetch, hb, hv, hd]⟩))

/-- When the TMC moves next, the step is its turn. -/
theorem step_of_tmcNext {s : State} {rest : List Turn} (h : TmcNext s rest) :
    step s = tmcTurn { s with sched := rest } := by
  obtain ⟨prf, busy, cmd, upc, tmp, cfg, trace, cmdValid, cmdWord, doneCount, sched⟩ := s
  rcases h with ⟨rfl, rfl⟩ | rfl <;> rfl

/-- Everything a step can do: the TMC's turn, a host turn, or a transaction of ENV. -/
theorem step_cases (s : State) :
    (s.sched = [] ∧ step s = tmcTurn s)
      ∨ ∃ rest, (s.sched = .tmc :: rest ∧ step s = tmcTurn { s with sched := rest })
        ∨ (∃ w, s.sched = .hostOffer w :: rest
            ∧ step s = .next (hostOffer w { s with sched := rest }))
        ∨ (s.sched = .hostWithdraw :: rest
            ∧ step s = .next (hostWithdraw { s with sched := rest }))
        ∨ (∃ r, s.sched = .envRead r :: rest
            ∧ step s = .next (regRead .env r { s with sched := rest }))
        ∨ (∃ v, s.sched = .envWrite v :: rest
            ∧ step s = .next (regWrite .env v { s with sched := rest })) := by
  unfold step takeTurn
  split <;> simp_all

end Sys2Proof.Machine
end

