-- ==== Sys2Proof/Laws/Runs.lean ====
section
/-! SUPPORT. How runs compose: a run's first step, and a run cut in two. -/

namespace Sys2Proof.Machine

/-- A run goes on from the next state its first step answers. -/
theorem run_succ {n : Nat} {s t : State} (h : step s = .next t) : run (n + 1) s = run n t := by
  simp only [run, Host.Core.run, core, h]

/-- A run of `a + b` steps is the run of `b` steps from where the one of `a` steps ended. -/
theorem run_add {a b : Nat} {s t : State} (h : run a s = .next t) : run (a + b) s = run b t := by
  induction a generalizing s with
  | zero =>
    cases h
    rw [Nat.zero_add]
  | succ a ih =>
    cases hs : step s with
    | next u =>
      rw [run_succ hs] at h
      rw [Nat.succ_add, run_succ hs, ih h]
    | fault r => simp [run, Host.Core.run, core, hs] at h
    | refused r => simp [run, Host.Core.run, core, hs] at h

/-- The same for a command run by the TMC alone. -/
theorem runCommand_add {a b : Nat} {i : Instr} {s t : State} (h : runCommand a i s = .next t) :
    runCommand (a + b) i s = runCommand b i t := by
  induction a generalizing s with
  | zero =>
    cases h
    rw [Nat.zero_add]
  | succ a ih =>
    rw [Nat.succ_add]
    simp only [runCommand] at h ⊢
    split at h
    · exact ih h
    · cases h
    · cases h

/-- A run to the end has nothing to do in a state at its end. -/
theorem runToEnd_of_atEnd {n : Nat} {s : State} (h : atEnd s = true) : runToEnd n s = .next s := by
  cases n <;> simp [runToEnd, h]

/-- Before the end it takes a step. -/
theorem runToEnd_succ {n : Nat} {s t : State} (h : atEnd s = false) (hs : step s = .next t) :
    runToEnd (n + 1) s = runToEnd n t := by
  simp [runToEnd, h, hs]

end Sys2Proof.Machine
end

