-- ==== Sys2Proof/Tests/Slice0.lean ====
section
/-! SUPPORT. Tests of the model against values the spec states (spec/95_test_vectors.md, "V" and "S",
and the worked examples of the variant rules), the smoke test of the well-formedness checks, and a
witness for the hypotheses of every statement that has any (`test_witness_…`). -/

open Sys2Proof Sys2Proof.Machine

namespace Sys2Proof.Tests

/-! ### Helpers -/

/-- The start state `S0` of spec/95_test_vectors.md. -/
def s0 : State := .resetWith ⟨0xBEEF, 0xFF, 0xFF, 0x1111, 0x2222, 0x3333⟩

/-- `S0` with the command `i` running and `n` of its transactions issued. -/
def running (i : Instr) (n : Nat) : State := { s0 with busy := true, cmd := i, upc := n }

/-- `S0` idle with the word `w` on the port. -/
def offered (w : CmdWord) : State := hostOffer w s0

/-- The command of S7 and V7: `INIT_FAST DIV64, BIT8, NONINV, DISC, 0`. -/
def s7 : Instr := .initFastBit8 .div64 .nonInv .disc 0

/-- The next state of an outcome, if it has one. -/
def nextOf : Host.Outcome State Fault Refusal → Option State
  | .next t => some t
  | .fault _ | .refused _ => none

/-! ### Well-formedness: one ill-formed term for each check, and the decoder refuses its word -/

def illReserved : CmdFields := ⟨1, 0, 3, 0, 2, 0, 0⟩
def illOperation : CmdFields := ⟨0, 5, 0, 0, 0, 0, 0⟩
def illFastSub : CmdFields := ⟨0, 0, 0, 5, 0, 0, 0⟩
def illPcSub : CmdFields := ⟨0, 1, 0, 7, 0, 0, 0⟩
def illLoad : CmdFields := ⟨0, 3, 1, 0, 0, 0, 0⟩

/-- R56 (a). -/
theorem test_ill_reserved : illReserved.reservedBitsClear = false ∧ illReserved.wellFormed = false
    ∧ decode (wordOf illReserved) = .invalid .reservedBitsSet := by decide

/-- R56 (b). -/
theorem test_ill_operation : illOperation.operationDefined = false ∧ illOperation.wellFormed = false
    ∧ decode (wordOf illOperation) = .invalid .operationReserved := by decide

/-- R56 (c). -/
theorem test_ill_fast_sub : illFastSub.fastSubModeDefined = false ∧ illFastSub.wellFormed = false
    ∧ decode (wordOf illFastSub) = .invalid .fastSubModeReserved := by decide

/-- R56 (d). -/
theorem test_ill_pc_sub : illPcSub.pcSubModeDefined = false ∧ illPcSub.wellFormed = false
    ∧ decode (wordOf illPcSub) = .invalid .pcSubModeReserved := by decide

/-- R56 (e): the word 0x0C800000 of V1. -/
theorem test_ill_load : illLoad.loadOperandsZero = false ∧ illLoad.wellFormed = false
    ∧ wordOf illLoad = 0x0C800000 ∧ decode 0x0C800000 = .invalid .loadOperandNotZero := by decide

/-- Sub-mode 5 is ill-formed for `INIT_FAST` only. -/
theorem test_well_formed : CmdFields.wellFormed ⟨0, 1, 7, 5, 3, 3, 0xFFFF⟩ = true := by decide

/-! ### Decoding: every row of the table, its word written out field by field from R48
(rsv, op, ps, sm, oa, ob, val); the words are those of V1, V4 and V6 -/

theorem test_decode_initFastBit8 : decode (0b000#3 ++ 0b000#3 ++ 0b011#3 ++ 0b000#3 ++ 0b10#2 ++ 0b11#2
    ++ 0x1234#16) = .command (.initFastBit8 .div64 .nonInv .inv 0x1234) := by decide
theorem test_decode_initFastBit9 : decode (0b000#3 ++ 0b000#3 ++ 0b011#3 ++ 0b001#3 ++ 0b10#2 ++ 0b11#2
    ++ 0x1234#16) = .command (.initFastBit9 .div64 .nonInv .inv 0x1234) := by decide
theorem test_decode_initFastBit10 : decode (0b000#3 ++ 0b000#3 ++ 0b011#3 ++ 0b010#3 ++ 0b10#2 ++ 0b11#2
    ++ 0x1234#16) = .command (.initFastBit10 .div64 .nonInv .inv 0x1234) := by decide
theorem test_decode_initFastTopCmpa : decode (0b000#3 ++ 0b000#3 ++ 0b010#3 ++ 0b011#3 ++ 0b10#2
    ++ 0b00#2 ++ 0x4E1F#16) = .command (.initFastTopCmpa .div8 .nonInv .disc 0x4E1F) := by decide
theorem test_decode_initFastTopTopr : decode (0b000#3 ++ 0b000#3 ++ 0b101#3 ++ 0b100#3 ++ 0b00#2
    ++ 0b10#2 ++ 0xFFFF#16) = .command (.initFastTopTopr .div1024 .disc .nonInv 0xFFFF) := by decide
theorem test_decode_initPcBit8 : decode (0b000#3 ++ 0b001#3 ++ 0b000#3 ++ 0b000#3 ++ 0b00#2 ++ 0b00#2
    ++ 0xABCD#16) = .command (.initPcBit8 .stop .disc .disc 0xABCD) := by decide
theorem test_decode_initPcBit9 : decode (0b000#3 ++ 0b001#3 ++ 0b110#3 ++ 0b001#3 ++ 0b11#2 ++ 0b00#2
    ++ 0x0000#16) = .command (.initPcBit9 .extFall .inv .disc 0) := by decide
theorem test_decode_initPcBit10 : decode (0b000#3 ++ 0b001#3 ++ 0b011#3 ++ 0b010#3 ++ 0b10#2 ++ 0b11#2
    ++ 0x03FF#16) = .command (.initPcBit10 .div64 .nonInv .inv 0x03FF) := by decide
theorem test_decode_initPcTopCmpa : decode (0b000#3 ++ 0b001#3 ++ 0b001#3 ++ 0b011#3 ++ 0b01#2 ++ 0b00#2
    ++ 0x00FF#16) = .command (.initPcTopCmpa .div1 .toggle .disc 0x00FF) := by decide
theorem test_decode_initPcTopTopr : decode (0b000#3 ++ 0b001#3 ++ 0b010#3 ++ 0b100#3 ++ 0b10#2 ++ 0b10#2
    ++ 0x9C40#16) = .command (.initPcTopTopr .div8 .nonInv .nonInv 0x9C40) := by decide
theorem test_decode_initPcFcTopCmpa : decode (0b000#3 ++ 0b001#3 ++ 0b101#3 ++ 0b101#3 ++ 0b00#2
    ++ 0b11#2 ++ 0x0001#16) = .command (.initPcFcTopCmpa .div1024 .disc .inv 1) := by decide
theorem test_decode_initPcFcTopTopr : decode (0b000#3 ++ 0b001#3 ++ 0b111#3 ++ 0b110#3 ++ 0b11#2
    ++ 0b11#2 ++ 0xFFFF#16) = .command (.initPcFcTopTopr .extRise .inv .inv 0xFFFF) := by decide
theorem test_decode_setCmpa : decode (0b000#3 ++ 0b010#3 ++ 0b0000000000#10 ++ 0x2ABC#16)
    = .command (.setCmpa 0x2ABC) := by decide
theorem test_decode_setCmpb : decode (0b000#3 ++ 0b011#3 ++ 0b0000000000#10 ++ 0x0001#16)
    = .command (.setCmpb 1) := by decide
theorem test_decode_setTop : decode (0b000#3 ++ 0b100#3 ++ 0b0000000000#10 ++ 0x4E1F#16)
    = .command (.setTop 0x4E1F) := by decide

/-- The words of V4 and V5 whose operands differ from those above, `DIV256` among them. -/
theorem test_decode_prescaler_256 :
    decode 0x024A0000 = .command (.initFastTopTopr .div256 .nonInv .nonInv 0) := by decide

/-- The all-zero and the all-ones word of V1. -/
theorem test_decode_extremes : decode 0 = .command (.initFastBit8 .stop .disc .disc 0)
    ∧ decode 0xFFFFFFFF = .invalid .reservedBitsSet := by decide

/-- The opcode table's numbering: the bits from `nbits` up are not there. -/
theorem test_decodeTableWord :
    decodeTableWord 32 0x10004E1F = some (.setTop 0x4E1F) ∧ decodeTableWord 32 0x14000000 = none
      ∧ decodeTableWord 32 0x110004E1F = some (.setTop 0x4E1F) := by decide

/-- The worked example of R59. -/
theorem test_encode : encode s7 = 0x01880000 := by decide

/-! ### Encoders and micro-programs -/

/-- V2: corners of the output table. -/
theorem test_outBits : outBits Config.layout .toggle .inv = 0x70
    ∧ outBits Config.layout .inv .disc = 0xC0 ∧ outBits Config.layout .disc .toggle = 0x10 := by decide

/-- V3: corners of the prescaler table. -/
theorem test_csBits : csBits Config.layout .stop = 0 ∧ csBits Config.layout .div1024 = 5
    ∧ csBits Config.layout .extRise = 7 := by decide

/-- R86. -/
theorem test_prog_initFastBit9 : prog (.initFastBit9 .div64 .nonInv .inv 0x1234)
    = [.w (.cnt 0), .w (.cra 2), .w (.crb 0), .r .cra, .wor .cra 0xB0, .r .crb, .wor .crb 3] := by decide
/-- R87. -/
theorem test_prog_initFastBit10 : prog (.initFastBit10 .div64 .nonInv .inv 0x1234)
    = [.w (.cnt 0), .w (.cra 3), .w (.crb 0), .r .cra, .wor .cra 0xB0, .r .crb, .wor .crb 3] := by decide
/-- R88, and P5: the top goes to CMPA, not to TOPR. -/
theorem test_prog_initFastTopCmpa : prog (.initFastTopCmpa .div64 .nonInv .nonInv 0x00FF)
    = [.w (.cnt 0), .w (.cra 2), .w (.crb 0x10), .w (.cmpa 0x00FF), .r .cra, .wor .cra 0xA0,
       .r .crb, .wor .crb 3] := by decide
/-- R96. -/
theorem test_prog_initPcFcTopCmpa : prog (.initPcFcTopCmpa .div1 .nonInv .disc 0x03E8)
    = [.w (.cnt 0), .w (.cra 0), .w (.crb 0x10), .w (.cmpa 0x03E8), .r .cra, .wor .cra 0x80,
       .r .crb, .wor .crb 1] := by decide

/-! ### Single steps -/

/-- R72: `INIT_FAST.BIT8` is accepted as the first command after reset; no transaction. -/
theorem test_step_accepts :
    (nextOf (step (State.reset.withFetchWord 32 0x018B1234))).map
        (fun t => (t.busy, t.upc, t.cmd, t.trace, t.prf.cnt))
      = some (true, 0, .initFastBit8 .div64 .nonInv .inv 0x1234, [], 0) := by decide

/-- R58: a reserved word is refused, and names the clause. -/
theorem test_step_refuses_invalid :
    step (State.reset.withFetchWord 32 0x04700000) = .refused (.invalidCommand .pcSubModeReserved) := rfl

/-- S7, first transaction: the counter is written with zero. -/
theorem test_step_counter : (nextOf (step (running s7 0))).map (fun t => (t.prf.cnt, t.upc, t.trace))
    = some (0, 1, [.write .tmc (.cnt 0)]) := by decide

/-- The write half of a merge ORs into `tmp`, not into the register (V7, third row). -/
theorem test_step_merge :
    (nextOf (step { running s7 4 with tmp := 0x01 })).map (fun t => (t.prf.cra, t.prf.crb))
      = some (0x81, 0xFF) := by decide

/-- The read half latches CRB whole and changes no register. -/
theorem test_step_read :
    (nextOf (step (running s7 5))).map (fun t => (t.tmp, t.prf, t.trace))
      = some (0xFF, s0.prf, [.read .tmc (.crb 0xFF)]) := by decide

/-- R89: step 2 writes the top to TOPR. -/
theorem test_step_top :
    (nextOf (step (running (.initFastTopTopr .div64 .nonInv .inv 0x1234) 3))).map
        (fun t => (t.prf.topr, t.prf.cmpa)) = some (0x1234, 0x2222) := by decide

/-- R97: step 2 of the frequency-correct Phase-Correct mode clears LOW and MID. -/
theorem test_step_mode :
    (nextOf (step (running (.initPcFcTopTopr .div64 .nonInv .inv 0x1234) 1))).map (fun t => t.prf.cra)
      = some 0 := by decide

/-- V6: each load writes its own register and no other. -/
theorem test_step_setCmpa : (nextOf (step (running (.setCmpa 0x2ABC) 0))).map State.prf
    = some ⟨0xBEEF, 0xFF, 0xFF, 0x1111, 0x2ABC, 0x3333⟩ := by decide
theorem test_step_setCmpb : (nextOf (step (running (.setCmpb 1) 0))).map State.prf
    = some ⟨0xBEEF, 0xFF, 0xFF, 0x1111, 0x2222, 1⟩ := by decide
theorem test_step_setTop : (nextOf (step (running (.setTop 0x4E1F) 0))).map State.prf
    = some ⟨0xBEEF, 0xFF, 0xFF, 0x4E1F, 0x2222, 0x3333⟩ := by decide

/-- R74: the completion of an initialisation sets `cfg`; that of a load leaves it (V6). -/
theorem test_step_completes :
    (nextOf (step (running (.initPcBit8 .stop .disc .disc 0) 7))).map (fun t => (t.busy, t.cfg))
        = some (false, .pc)
      ∧ (nextOf (step (running (.setTop 0) 1))).map (fun t => (t.busy, t.cfg, t.doneCount))
        = some (false, .uninit, 1) := by decide

/-- R117: idle and nothing offered. -/
theorem test_step_idle : nextOf (step s0) = some s0 := by decide

/-- V7: an ENV write is a step of its own. -/
theorem test_step_env :
    (nextOf (step { running s7 3 with sched := [.envWrite (.cra 0x0C)] })).map
        (fun t => (t.prf.cra, t.upc, t.trace)) = some (0x0C, 3, [.write .env (.cra 0x0C)]) := by decide

/-- The one state in which a meaning faults: past the end of the micro-program (log 6). -/
theorem test_stuck : exec (.setTop 0) (running (.setTop 0) 2) = .fault .sequencerStuck := rfl

/-! ### Witnesses: the hypotheses of each statement can be met -/

/-- `EncodeDecodeInverse`, whose converse direction assumes that a word decodes. -/
theorem test_witness_EncodeDecodeInverse :
    decode 0x01880000 = .command s7 ∧ encode s7 = 0x01880000 := by decide

/-- `ReservedExactly`: each side, at boundary values of `op` and `sm`. -/
theorem test_witness_ReservedExactly :
    decode 0x10000000 = .command (.setTop 0) ∧ decode 0x14000000 = .invalid .operationReserved
      ∧ decode 0x04600000 = .command (.initPcFcTopTopr .stop .disc .disc 0)
      ∧ decode 0x04700000 = .invalid .pcSubModeReserved
      ∧ decode 0x00400000 = .command (.initFastTopTopr .stop .disc .disc 0)
      ∧ decode 0x00500000 = .invalid .fastSubModeReserved := by decide

/-- A layout other than the default one: every field moved, the mode bits split the other way. -/
def otherLayout : Layout :=
  ⟨⟨.crb, 7⟩, ⟨.crb, 3⟩, ⟨.cra, 0⟩, ⟨.cra, 1⟩, ⟨.cra, 6⟩, ⟨.crb, 4⟩⟩

/-- `FieldsReadBackInAnyLayout`: two layouts that meet the constraints, and one that does not. -/
theorem test_witness_FieldsReadBackInAnyLayout :
    otherLayout.Ok ∧ Config.layout.Ok ∧ ¬ Layout.Ok { otherLayout with cs := ⟨.crb, 5⟩ }
      ∧ ∃ c : CtlReg → Byte, c .cra = modeReg otherLayout .cra ⟨true, false, true⟩
          ||| outBits otherLayout .inv .toggle
        ∧ c .crb = modeReg otherLayout .crb ⟨true, false, true⟩ ||| csBits otherLayout .div8 := by
  refine ⟨by decide, by decide, by decide, fun r => ?_, ?_, ?_⟩
  · exact match r with
      | .cra => modeReg otherLayout .cra ⟨true, false, true⟩ ||| outBits otherLayout .inv .toggle
      | .crb => modeReg otherLayout .crb ⟨true, false, true⟩ ||| csBits otherLayout .div8
  · rfl
  · rfl

/-- `AddressesNameDistinctStorage`: there is an address map, and a write is seen at its own address. -/
theorem test_witness_AddressesNameDistinctStorage : ∃ a : AddrMap, busSelect a (a.addr .cmpb) = some .cmpb
    ∧ (regWrite .tmc (.cmpb 7) s0).prf.read .cmpb = .cmpb 7 := by
  refine ⟨⟨fun r => 0x80 + 2 * r.number.toNat, ?_⟩, rfl, rfl⟩
  intro r q
  cases r <;> cases q <;> decide

/-- `AcceptanceStep`, its three clauses, each with no turn scheduled and with a TMC turn at the head of
the schedule. -/
theorem test_witness_AcceptanceStep :
    (TmcNext (offered 0x01880000) [] ∧ (offered 0x01880000).busy = false
        ∧ (offered 0x01880000).cmdValid = true
        ∧ decode (offered 0x01880000).cmdWord = .command s7)
      ∧ TmcNext { offered 0x20000000 with sched := [.tmc, .hostWithdraw] } [.hostWithdraw]
      ∧ decode (offered 0x20000000).cmdWord = .invalid .reservedBitsSet
      ∧ (running s7 0).busy = true
      ∧ (∃ t, TmcNext (running s7 0) [] ∧ step (running s7 0) = .next t)
      ∧ ∃ s t : State, s.busy = true ∧ TmcNext s [.hostOffer 0] ∧ step s = .next t :=
  ⟨by decide, by decide, by decide, rfl, ⟨_, by decide, rfl⟩,
    { running s7 7 with sched := [.tmc, .hostOffer 0] }, _, rfl, by decide, rfl⟩

/-- The refusal is the same at a scheduled TMC turn. -/
theorem test_step_refuses_at_turn :
    step { offered 0x20000000 with sched := [.tmc, .hostWithdraw] }
      = .refused (.invalidCommand .reservedBitsSet) := rfl

/-- `IdleTmcWaits`: idle with nothing offered, both clauses. -/
theorem test_witness_IdleTmcWaits : s0.busy = false ∧ s0.cmdValid = false ∧ s0.sched = []
    ∧ ∃ s : State, s.busy = false ∧ s.cmdValid = false ∧ s.sched = .tmc :: [.hostOffer 0] :=
  ⟨rfl, rfl, rfl, { s0 with sched := [.tmc, .hostOffer 0] }, rfl, rfl, rfl⟩

/-- `MicroStepTransaction`: each kind of micro-operation, the first and the last of the program. -/
theorem test_witness_MicroStepTransaction :
    (running s7 0).busy = true ∧ (prog s7)[(running s7 0).upc]? = some (.w (.cnt 0))
      ∧ (prog s7)[(running s7 3).upc]? = some (.r .cra)
      ∧ (prog s7)[(running s7 6).upc]? = some (.wor .crb 3) := by decide

/-- `CompletionStep`: its three clauses. -/
theorem test_witness_CompletionStep :
    (running s7 7).busy = true ∧ (running s7 7).upc = (prog s7).length
      ∧ (prog (.initPc .fcTopCmpa .stop .disc .disc 0)).length = 8
      ∧ (running (.setTop 0) 1).upc = (prog (.setTop 0)).length := by decide

/-- `StepRunsCommand`: a busy TMC, a TMC turn at the head of the schedule, a placed word. -/
theorem test_witness_StepRunsCommand :
    (running s7 3).sched = [] ∧ (running s7 3).busy = true
      ∧ (∃ s : State, s.sched = .tmc :: [] ∧ s.busy = true ∧ s.cmd = s7)
      ∧ (∃ s : State, s.sched = .tmc :: [.hostWithdraw] ∧ s.busy = false ∧ s.cmdValid = true
          ∧ decode s.cmdWord = .command s7)
      ∧ decodeTableWord 32 0x01880000 = some s7 :=
  ⟨rfl, rfl, ⟨{ running s7 3 with sched := [.tmc] }, rfl, rfl, rfl⟩,
    ⟨{ offered 0x01880000 with sched := [.tmc, .hostWithdraw] }, by decide⟩, by decide⟩

/-- `StepOutcomes` and `InvariantKept`: the invariant holds with the TMC idle, and busy between the
halves of a merge, and there the machine steps. -/
theorem test_witness_invariant :
    (∃ t, TmcInv s0.prf s0 ∧ step s0 = .next t)
      ∧ ∃ s t : State, TmcInv s0.prf s ∧ s.busy = true ∧ step s = .next t := by
  refine ⟨⟨s0, ⟨by decide, by decide, fun r => rfl, ?_, fun h => by cases h⟩, rfl⟩,
    { running s7 4 with tmp := 0xFF, trace := [.read .tmc (.cra 0xFF)] }, _,
    ⟨by decide, by decide, fun r => by cases r <;> rfl, ?_, ?_⟩, rfl, rfl⟩
  · intro before who v after h
    simp [s0, State.resetWith] at h
  · intro before who v after h
    cases before with
    | nil => cases h; rfl
    | cons e l => simp at h
  · intro _ c k h
    simp only [running, s7, prog] at h
    cases h
    rfl

/-- An idle state: the hypothesis of `EveryCommandCompletes`, the variants, `InitEndStateFields`,
`InitIntermediateStates`, `ReinitialisationOverwrites`, `LoadsIndependent`. -/
theorem test_witness_idle : s0.busy = false ∧ Instr.init (.fast .bit8) .div64 .nonInv .disc 0 = s7 := by
  decide

/-- `CommandEndsUnderAnySchedule` at both ends of the range of `upc`, with turns still scheduled. -/
theorem test_witness_CommandEndsUnderAnySchedule : ∃ s : State, s.busy = true ∧ s.upc = (prog s.cmd).length
    ∧ s.sched = [.envRead .cnt, .tmc] :=
  ⟨{ running s7 7 with sched := [.envRead .cnt, .tmc] }, by decide⟩

/-- `CounterResetFirst` and `RegisterLoadVariants`: busy with nothing issued yet. -/
theorem test_witness_CounterResetFirst : (running s7 0).busy = true ∧ (running s7 0).upc = 0 := by decide

/-- `InitEndStateUndisturbed`: S7 under a schedule with a read of ENV and an offer of the host. -/
theorem test_witness_InitEndStateUndisturbed : ∃ (s t : State) (ev : List Event), s.busy = true
    ∧ s.cmd = .init (.fast .bit8) .div64 .nonInv .disc 0 ∧ s.upc = 0 ∧ runUntilIdle 12 s = .next t
    ∧ t.busy = false ∧ t.trace = s.trace ++ ev ∧ envWrites ev = [] :=
  ⟨{ running s7 0 with sched := [.tmc, .envRead .cra, .hostOffer 0] }, _, _, rfl, rfl, rfl, rfl, rfl,
    rfl, rfl⟩

/-- `InitTraceUnderInterference`: V7, second row, an ENV write before the read of step 3. -/
theorem test_witness_InitTraceUnderInterference : ∃ s t : State, s.busy = true
    ∧ s.cmd = .init (.fast .bit8) .div64 .nonInv .disc 0 ∧ s.upc = 0 ∧ runUntilIdle 12 s = .next t
    ∧ t.busy = false ∧ t.prf.cra = 0x8C ∧ t.prf.crb = 0x03 :=
  ⟨{ running s7 0 with sched := [.tmc, .tmc, .tmc, .envWrite (.cra 0x0C)] }, _, rfl, rfl, rfl, rfl, rfl,
    rfl, rfl⟩

/-- `ReinitialisationOverwrites`: its two conditions on `DEST` are met by one sub-mode each. -/
theorem test_witness_ReinitialisationOverwrites :
    topDest (.fast .bit8) ≠ some .topr ∧ topDest (.pc .topTopr) ≠ some .cmpa := by decide

/-- `FixedResolutionIgnoresTop`, `FamilyLeavesNoMark`, `LoadsIndependent`: members of the lists. -/
theorem test_witness_lists :
    InitMode.pc .bit10 ∈ [InitMode.fast .bit8, .fast .bit9, .fast .bit10, .pc .bit8, .pc .bit9, .pc .bit10]
      ∧ (FastSub.topTopr, PcSub.topTopr) ∈ [(FastSub.bit8, PcSub.bit8), (.topTopr, .topTopr)]
      ∧ Instr.setTop ∈ [Instr.setCmpa, .setCmpb, .setTop] :=
  ⟨by decide, by decide, by simp⟩

/-- `FamilyLeavesNoMark`, its last clause: the codes 5 and 6 under either family, at the code 6. -/
theorem test_witness_FamilyLeavesNoMark :
    decode 0x00600000 = .invalid .fastSubModeReserved
      ∧ decode 0x04600000 = .command (.initPcFcTopTopr .stop .disc .disc 0)
      ∧ (0x00600000 : CmdWord).extractLsb' 29 3 = 0 ∧ (0x00600000 : CmdWord).extractLsb' 20 3 = 6 := by
  decide

/-- `RegisterLoadVariants`, its last clause, and `LoadsIndependent`, its frame clauses: a load's step
that writes CMPB, and one that writes nothing. -/
theorem test_witness_RegisterLoadVariants :
    (∃ t, exec (.setCmpb 1) (running (.setCmpb 1) 0) = .next t
        ∧ t.trace = (running (.setCmpb 1) 0).trace ++ [.write .tmc (.cmpb 1)])
      ∧ ∃ t, exec (.setTop 1) s0 = .next t ∧ t.prf = s0.prf :=
  ⟨⟨_, rfl, rfl⟩, _, rfl, rfl⟩

/-- `AccessMatrix` and `SequencerFrame`: exec answers in an idle and in a busy state. -/
theorem test_witness_exec_next : (∃ t, exec s7 s0 = .next t) ∧ ∃ t, exec s7 (running s7 5) = .next t :=
  ⟨⟨_, rfl⟩, _, rfl⟩

/-- `UpcCountsTransactions` and `TraceOnlyGrows`: each kind of step. -/
theorem test_witness_step_next : (∃ t, step (offered 0x01880000) = .next t)
    ∧ (∃ t, step (running s7 5) = .next t) ∧ ∃ t, step s0 = .next t :=
  ⟨⟨_, rfl⟩, ⟨_, rfl⟩, _, rfl⟩

/-- `EnvTransactions`: a schedule that begins with a read, and one that begins with a write. -/
theorem test_witness_EnvTransactions : (∃ s : State, s.sched = .envRead .cra :: [.tmc])
    ∧ ∃ s : State, s.sched = .envWrite (.cnt 7) :: [] :=
  ⟨⟨{ s0 with sched := [.envRead .cra, .tmc] }, rfl⟩, { s0 with sched := [.envWrite (.cnt 7)] }, rfl⟩

/-- `MergeWindow`: both clauses, the CRA merge and the CRB merge of S7. -/
theorem test_witness_MergeWindow :
    (∃ s : State, s.busy = true ∧ (prog s.cmd)[s.upc]? = some (.r .cra)
        ∧ (prog s.cmd)[s.upc + 1]? = some (.wor .cra 0x80)
        ∧ s.sched = .tmc :: .envWrite (ctlVal .cra 0x0C) :: .tmc :: [])
      ∧ ∃ s : State, s.busy = true ∧ (prog s.cmd)[s.upc]? = some (.r .crb)
        ∧ (prog s.cmd)[s.upc + 1]? = some (.wor .crb 3)
        ∧ s.sched = .envWrite (ctlVal .crb 0x04) :: .tmc :: .tmc :: [] :=
  ⟨⟨{ running s7 3 with sched := [.tmc, .envWrite (.cra 0x0C), .tmc] }, by decide⟩,
    { running s7 5 with sched := [.envWrite (.crb 0x04), .tmc, .tmc] }, by decide⟩

/-- `HostTurns`: an offer to an idle TMC, one to a busy TMC, a withdrawal. -/
theorem test_witness_HostTurns : (∃ s : State, s.busy = false ∧ s.sched = .hostOffer 0x08002ABC :: [])
    ∧ (∃ s : State, s.busy = true ∧ s.sched = .hostOffer 0x08002ABC :: [.hostWithdraw])
    ∧ ∃ s : State, s.sched = .hostWithdraw :: [.tmc] :=
  ⟨⟨{ s0 with sched := [.hostOffer 0x08002ABC] }, rfl, rfl⟩,
    ⟨{ running s7 6 with sched := [.hostOffer 0x08002ABC, .hostWithdraw] }, rfl, rfl⟩,
    { s0 with sched := [.hostWithdraw, .tmc] }, rfl⟩

/-- `OfferWhileBusyWaits`: a valid word is offered while S7 runs and withdrawn just before the
completion, with transactions of the TMC and of ENV between and turns left after it. -/
theorem test_witness_OfferWhileBusyWaits : ∃ (s m : State) (before after : List Turn), s.busy = true
    ∧ s.sched = .hostOffer 0x08002ABC :: (before ++ .hostWithdraw :: after)
    ∧ (∀ w', .hostOffer w' ∉ after) ∧ run (before.length + 1) s = .next m
    ∧ m.doneCount = s.doneCount ∧ before.length = 3 ∧ ∃ t, run 3 m = .next t :=
  ⟨{ running s7 5 with
      sched := [.hostOffer 0x08002ABC, .tmc, .envWrite (.cnt 7), .tmc, .hostWithdraw, .tmc, .tmc] },
    _, [.tmc, .envWrite (.cnt 7), .tmc], [.tmc, .tmc], rfl, rfl, by simp, rfl, rfl, rfl, _, rfl⟩

/-- `PortUnseenWhileBusy` and `RegistersNeverSteer`: busy, and the TMC moves, in both forms. -/
theorem test_witness_busy : (running s7 5).busy = true ∧ TmcNext (running s7 5) []
    ∧ TmcNext { running s7 5 with sched := [.tmc, .envRead .cnt] } [.envRead .cnt] := by decide

/-- `StatelessBetweenCommands`: two idle states with equal registers and different leftovers. -/
theorem test_witness_StatelessBetweenCommands : ∃ s s' : State, s.busy = false ∧ s'.busy = false
    ∧ s.prf = s'.prf ∧ s ≠ s' :=
  ⟨s0, { s0 with upc := 7, tmp := 9, cfg := .pc }, by decide⟩

/-! ### Whole runs -/

/-- `NoTransactionBeforeAnOffer`: turns without an offer, ENV's among them. -/
theorem test_witness_NoTransactionBeforeAnOffer :
    ∀ w, .hostOffer w ∉ [Turn.tmc, .envWrite (.cnt 7), .hostWithdraw] := by simp

/-- `StepTakesNextTurn`: a run of two steps with a turn left. -/
theorem test_witness_StepTakesNextTurn : ∃ t, run 2 (startRun s0.prf [.hostOffer 0, .tmc, .hostWithdraw])
    = .next t ∧ t.sched = [.hostWithdraw] := ⟨_, rfl, rfl⟩

/-- `RunEndIsFinal`, each clause: a run at its end with turns left, and the two ways not to be at it. -/
theorem test_witness_RunEndIsFinal :
    atEnd { s0 with sched := [.envWrite (.cnt 7), .tmc, .hostWithdraw] } = true
      ∧ (running s7 7).busy = true ∧ (offered 0).cmdValid = true := by decide

/-- An offer still to come, on the port or in the schedule, is not the end of a run (R133). -/
theorem test_atEnd : atEnd (offered 0x01880000) = false
    ∧ atEnd { s0 with sched := [.tmc, .hostOffer 0] } = false := by decide

/-- `RunReachesEnd`: turns with a valid offer. -/
theorem test_witness_RunReachesEnd :
    ∀ w, .hostOffer w ∈ [Turn.hostOffer 0x01880000, .tmc] → ∃ i, decode w = .command i := by
  intro w h
  simp only [List.mem_cons, List.not_mem_nil, or_false, reduceCtorEq] at h
  cases h
  exact ⟨s7, by decide⟩

/-- `CommandSequenceEnd`, through the whole run of one command. -/
theorem test_witness_CommandSequenceEnd : ∃ t,
    run (programTurns [.setTop 0x4E1F]).length (startRun s0.prf (programTurns [.setTop 0x4E1F]))
      = .next t ∧ atEnd t = true ∧ t.prf.topr = 0x4E1F := ⟨_, rfl, rfl, rfl⟩

/-- V5, two rows. -/
theorem test_commandEnd :
    commandEnd (.initPcTopCmpa .div1 .toggle .disc 0x00FF) s0.prf = ⟨0, 0x42, 0x11, 0x1111, 0x00FF, 0x3333⟩
      ∧ commandEnd (.initFastTopTopr .div1024 .disc .nonInv 0xFFFF) s0.prf
        = ⟨0, 0x22, 0x15, 0xFFFF, 0x2222, 0x3333⟩ := by decide

end Sys2Proof.Tests
end

section
/-! PROOFS of the family 00_scope.md: the layouts of R6 and R7. The end value of a control register is
an OR of shifted fields. Here it is described bit by bit: a layout lists cells, each a bit position with
the bit put there, and a bit of the register is 1 when a cell at its position holds 1. R7's constraint
that no position is used twice then makes each cell read back. -/

namespace Sys2Proof.Machine

/-- The cells of a field at `p` that holds `v`: one per bit of the field. -/
def fieldCells {n : Nat} (p : BitPos) (v : BitVec n) : List (BitPos × Bool) :=
  (List.range n).map fun j => ({ p with bit := p.bit + j }, v.getLsbD j)

/-- The cells of all fields of a layout, in the order of `Layout.bits`. -/
def layoutCells (l : Layout) (m : ModeBits) (oa ob : OutMode) (ps : Prescaler) :
    List (BitPos × Bool) :=
  [(l.low, m.low), (l.mid, m.mid), (l.high, m.high)]
    ++ fieldCells l.coma oa.code ++ fieldCells l.comb ob.code ++ fieldCells l.cs ps.code

/-- The bit that the OR of all cells leaves at a position. -/
def cellsAt (cells : List (BitPos × Bool)) (p : BitPos) : Bool :=
  cells.any fun cell => decide (cell.1 = p) && cell.2

@[simp] theorem cellsAt_nil (p : BitPos) : cellsAt [] p = false := rfl

@[simp] theorem cellsAt_cons (q : BitPos) (b : Bool) (cells : List (BitPos × Bool)) (p : BitPos) :
    cellsAt ((q, b) :: cells) p = (decide (q = p) && b || cellsAt cells p) := rfl

@[simp] theorem cellsAt_append (xs ys : List (BitPos × Bool)) (p : BitPos) :
    cellsAt (xs ++ ys) p = (cellsAt xs p || cellsAt ys p) := List.any_append

theorem cellsAt_eq_true_iff {cells : List (BitPos × Bool)} {p : BitPos} :
    cellsAt cells p = true ↔ (p, true) ∈ cells := by
  simp [cellsAt]

/-- A position that no cell has is 0. -/
theorem cellsAt_of_notMem {cells : List (BitPos × Bool)} {p : BitPos} (h : p ∉ cells.map Prod.fst) :
    cellsAt cells p = false := by
  rw [← Bool.not_eq_true, cellsAt_eq_true_iff]
  exact fun hmem => h (List.mem_map_of_mem hmem)

/-- A cell reads back when no other cell has its position. -/
theorem cellsAt_of_mem {cells : List (BitPos × Bool)} (hnodup : (cells.map Prod.fst).Nodup)
    {p : BitPos} {b : Bool} (hmem : (p, b) ∈ cells) : cellsAt cells p = b := by
  cases b with
  | true => exact cellsAt_eq_true_iff.2 hmem
  | false =>
    rw [← Bool.not_eq_true, cellsAt_eq_true_iff]
    intro htrue
    have := List.inj_on_of_nodup_map hnodup hmem htrue rfl
    simp at this

theorem map_fst_layoutCells (l : Layout) (m : ModeBits) (oa ob : OutMode) (ps : Prescaler) :
    (layoutCells l m oa ob ps).map Prod.fst = l.bits := rfl

theorem mem_fieldCells {n j : Nat} (p : BitPos) (v : BitVec n) (hj : j < n) :
    (⟨p.reg, p.bit + j⟩, v.getLsbD j) ∈ fieldCells p v :=
  List.mem_map.2 ⟨j, List.mem_range.2 hj, rfl⟩

/-- The bits of a field are those of its value, shifted to its position, in the register it lies in. -/
theorem cellsAt_fieldCells {n : Nat} (p : BitPos) (v : BitVec n) (r : CtlReg) (k : Nat) :
    cellsAt (fieldCells p v) ⟨r, k⟩
      = (decide (p.reg = r) && !decide (k < p.bit) && v.getLsbD (k - p.bit)) := by
  rw [Bool.eq_iff_iff, cellsAt_eq_true_iff]
  simp only [fieldCells, List.mem_map, List.mem_range, Prod.mk.injEq, BitPos.mk.injEq,
    Bool.and_eq_true, Bool.not_eq_true', decide_eq_false_iff_not, Nat.not_lt, decide_eq_true_eq]
  constructor
  · rintro ⟨j, -, ⟨hreg, rfl⟩, hbit⟩
    simpa [hreg] using hbit
  · rintro ⟨⟨hreg, hle⟩, hbit⟩
    exact ⟨k - p.bit, BitVec.lt_of_getLsbD hbit, ⟨hreg, by omega⟩, hbit⟩

/-- A field in a register it lies in, bit by bit. -/
theorem getLsbD_field {n : Nat} {p : BitPos} {r : CtlReg} (hreg : p.reg = r) (v : BitVec n) (k : Nat) :
    (v.setWidth 8 <<< p.bit).getLsbD k = (decide (k < 8) && cellsAt (fieldCells p v) ⟨r, k⟩) := by
  rw [cellsAt_fieldCells, BitVec.getLsbD_shiftLeft, BitVec.getLsbD_setWidth]
  by_cases hk : k < 8
  · have : k - p.bit < 8 := by omega
    simp [hk, hreg, this]
  · simp [hk]

/-- A field is invisible in a register it does not lie in. -/
theorem cellsAt_fieldCells_of_ne {n : Nat} {p : BitPos} {r : CtlReg} (hreg : p.reg ≠ r) (v : BitVec n)
    (k : Nat) : cellsAt (fieldCells p v) ⟨r, k⟩ = false := by
  simp [cellsAt_fieldCells, hreg]

theorem getLsbD_placeBit (p : BitPos) (r : CtlReg) (b : Bool) (k : Nat) :
    (placeBit p r b).getLsbD k = (decide (k < 8) && (decide (p = ⟨r, k⟩) && b)) := by
  obtain ⟨reg, bit⟩ := p
  by_cases hreg : reg = r
  · have hcell := getLsbD_field (p := ⟨reg, bit⟩) hreg (BitVec.ofBool b) k
    simpa [placeBit, hreg, fieldCells] using hcell
  · simp [placeBit, hreg]

/-- `MODE_A` and `MODE_B`, bit by bit. -/
theorem getLsbD_modeReg (l : Layout) (r : CtlReg) (m : ModeBits) (k : Nat) :
    (modeReg l r m).getLsbD k
      = (decide (k < 8) && cellsAt [(l.low, m.low), (l.mid, m.mid), (l.high, m.high)] ⟨r, k⟩) := by
  simp [modeReg, getLsbD_placeBit, Bool.and_or_distrib_left, Bool.or_assoc]

/-- `OUT_BITS`, bit by bit, when both output fields lie in CRA. -/
theorem getLsbD_outBits {l : Layout} (hcoma : l.coma.reg = .cra) (hcomb : l.comb.reg = .cra)
    (oa ob : OutMode) (k : Nat) :
    (outBits l oa ob).getLsbD k
      = (decide (k < 8) && cellsAt (fieldCells l.coma oa.code ++ fieldCells l.comb ob.code) ⟨.cra, k⟩) := by
  rw [outBits, BitVec.getLsbD_or, getLsbD_field hcoma, getLsbD_field hcomb, cellsAt_append,
    Bool.and_or_distrib_left]

section EndValues

/-! The end values of CRA and CRB in an admissible layout, as `Obligations.FieldsReadBackInAnyLayout`
gives them. -/

variable {l : Layout} {m : ModeBits} {oa ob : OutMode} {ps : Prescaler} {c : CtlReg → Byte}

/-- The end values of CRA and CRB hold the cells of the layout and nothing else. -/
theorem getLsbD_endValue (hcoma : l.coma.reg = .cra) (hcomb : l.comb.reg = .cra) (hcs : l.cs.reg = .crb)
    (hcra : c .cra = modeReg l .cra m ||| outBits l oa ob)
    (hcrb : c .crb = modeReg l .crb m ||| csBits l ps) (r : CtlReg) (k : Nat) :
    (c r).getLsbD k = (decide (k < 8) && cellsAt (layoutCells l m oa ob ps) ⟨r, k⟩) := by
  cases r with
  | cra =>
    have hcsA : cellsAt (fieldCells l.cs ps.code) ⟨.cra, k⟩ = false :=
      cellsAt_fieldCells_of_ne (by simp [hcs]) _ k
    rw [hcra, BitVec.getLsbD_or, getLsbD_modeReg, getLsbD_outBits hcoma hcomb, layoutCells,
      ← Bool.and_or_distrib_left, ← cellsAt_append, cellsAt_append _ (fieldCells l.cs _), hcsA,
      Bool.or_false, List.append_assoc]
  | crb =>
    have hcomaB : cellsAt (fieldCells l.coma oa.code) ⟨.crb, k⟩ = false :=
      cellsAt_fieldCells_of_ne (by simp [hcoma]) _ k
    have hcombB : cellsAt (fieldCells l.comb ob.code) ⟨.crb, k⟩ = false :=
      cellsAt_fieldCells_of_ne (by simp [hcomb]) _ k
    rw [hcrb, BitVec.getLsbD_or, getLsbD_modeReg, csBits, getLsbD_field hcs, layoutCells,
      ← Bool.and_or_distrib_left, cellsAt_append, cellsAt_append, cellsAt_append, hcomaB, hcombB,
      Bool.or_false, Bool.or_false]

variable (hread : ∀ r k, (c r).getLsbD k
  = (decide (k < 8) && cellsAt (layoutCells l m oa ob ps) ⟨r, k⟩))
include hread

/-- In an admissible layout each cell reads back from its register. -/
theorem getLsbD_of_mem_layoutCells (hok : l.Ok) {p : BitPos} {b : Bool}
    (hmem : (p, b) ∈ layoutCells l m oa ob ps) : (c p.reg).getLsbD p.bit = b := by
  obtain ⟨hlt, hnodup, -⟩ := hok
  rw [← map_fst_layoutCells l m oa ob ps] at hlt hnodup
  have hbit : p.bit < 8 := hlt p (List.mem_map_of_mem hmem)
  rw [hread, cellsAt_of_mem hnodup hmem, decide_eq_true hbit, Bool.true_and]

/-- In an admissible layout each field reads back from its register. -/
theorem extractLsb'_of_fieldCells_subset (hok : l.Ok) {n : Nat} {p : BitPos} {v : BitVec n}
    (hsub : fieldCells p v ⊆ layoutCells l m oa ob ps) :
    (c p.reg).extractLsb' p.bit n = v := by
  ext j hj
  rw [BitVec.getElem_extractLsb',
    getLsbD_of_mem_layoutCells hread hok (hsub (mem_fieldCells p v hj)), BitVec.getLsbD_eq_getElem hj]

/-- A bit outside the fields is 0. -/
theorem getLsbD_of_notMem_bits {r : CtlReg} {k : Nat} (h : ⟨r, k⟩ ∉ l.bits) :
    (c r).getLsbD k = false := by
  rw [← map_fst_layoutCells l m oa ob ps] at h
  rw [hread, cellsAt_of_notMem h, Bool.and_false]

end EndValues

/-- Settles O6: the ten positions of R6 are literals, so R7's constraints are a finite check. -/
theorem defaultLayoutMeetsConstraints : Obligations.DefaultLayoutMeetsConstraints := by
  unfold Obligations.DefaultLayoutMeetsConstraints
  decide

/-- Settles O7: the end values are the OR of the layout's cells, whose positions are distinct. -/
theorem fieldsReadBackInAnyLayout : Obligations.FieldsReadBackInAnyLayout := by
  intro l hok m oa ob ps c hcra hcrb
  have ⟨_, _, _, hcoma, hcomb, hcs⟩ := hok
  have hread := getLsbD_endValue hcoma hcomb hcs hcra hcrb
  refine ⟨?low, ?mid, ?high, ?coma, ?comb, ?cs, fun r k => getLsbD_of_notMem_bits hread⟩
  case low | mid | high => exact getLsbD_of_mem_layoutCells hread hok (by simp [layoutCells])
  case coma =>
    exact hcoma ▸ extractLsb'_of_fieldCells_subset hread hok fun _ h => by simp [layoutCells, h]
  case comb =>
    exact hcomb ▸ extractLsb'_of_fieldCells_subset hread hok fun _ h => by simp [layoutCells, h]
  case cs =>
    exact hcs ▸ extractLsb'_of_fieldCells_subset hread hok fun _ h => by simp [layoutCells, h]

end Sys2Proof.Machine
end

section
/-! PROOFS of the family 10_state.md: the state and what every step keeps of it. A step with a command
is an acceptance, a transaction or a completion (`TmcEffect`), and a step of the machine is one of these
or a turn that leaves the sequencer where it is (`StepEffect`). The frames are read off the first, and
the invariant is kept by the second in two independent halves: that the registers and the history agree
(`Records`), and that the sequencer is inside its micro-program. -/

namespace Sys2Proof.Machine

/-! ### What a step leaves, said once -/

/-- A step with the command `i` from `s` that answers the next state `t` (R72, R73, R74). -/
inductive TmcEffect (i : Instr) (s : State) : State → Prop where
  | accepts (idle : s.busy = false) : TmcEffect i s (accept i s)
  | transacts (busy : s.busy = true) (m : MicroOp) (hm : (prog i)[s.upc]? = some m) :
      TmcEffect i s (microStep m s)
  | completes (busy : s.busy = true) (ended : s.upc = (prog i).length) :
      TmcEffect i s (complete (family i) s)

theorem exec_effect {i : Instr} {s t : State} (h : exec i s = .next t) : TmcEffect i s t := by
  rw [exec_eq_sequencer] at h
  rcases sequencer_cases i (prog i) (family i) s with
    ⟨idle, heq⟩ | ⟨busy, m, hm, heq⟩ | ⟨busy, ended, heq⟩ | ⟨-, -, heq⟩ <;>
    rw [heq] at h <;> cases h
  · exact .accepts idle
  · exact .transacts busy m hm
  · exact .completes busy ended

/-- A step of the machine from `s` that answers the next state `t`, by the agent whose turn it is; `rest`
are the turns after it (R11, R42). -/
inductive StepEffect (s : State) : State → Prop where
  | tmcActs (rest : List Turn) (next : TmcNext s rest) (i : Instr) (fetched : fetch s = .command i)
      (t : State) (effect : TmcEffect i { s with sched := rest } t) : StepEffect s t
  | tmcWaits (rest : List Turn) (next : TmcNext s rest) (fetched : fetch s = .nothing) :
      StepEffect s { s with sched := rest }
  | hostOffers (rest : List Turn) (w : CmdWord) (next : s.sched = .hostOffer w :: rest) :
      StepEffect s (hostOffer w { s with sched := rest })
  | hostWithdraws (rest : List Turn) (next : s.sched = .hostWithdraw :: rest) :
      StepEffect s (hostWithdraw { s with sched := rest })
  | envReads (rest : List Turn) (r : RegId) (next : s.sched = .envRead r :: rest) :
      StepEffect s (regRead .env r { s with sched := rest })
  | envWrites (rest : List Turn) (v : RegVal) (next : s.sched = .envWrite v :: rest) :
      StepEffect s (regWrite .env v { s with sched := rest })

/-- A busy TMC goes on with its latch. -/
theorem eq_cmd_of_fetch {s : State} {i : Instr} (busy : s.busy = true) (h : fetch s = .command i) :
    i = s.cmd := by
  simpa [fetch, busy, eq_comm] using h

theorem tmcTurn_effect {s t : State} {rest : List Turn} (next : TmcNext s rest)
    (h : tmcTurn { s with sched := rest } = .next t) : StepEffect s t := by
  have hfetch : fetch { s with sched := rest } = fetch s := rfl
  rw [tmcTurn, hfetch] at h
  cases hf : fetch s with
  | nothing =>
    rw [hf] at h
    cases h
    exact .tmcWaits rest next hf
  | command i =>
    rw [hf] at h
    exact .tmcActs rest next i hf t (exec_effect h)
  | invalid why =>
    rw [hf] at h
    cases h

theorem step_effect {s t : State} (h : step s = .next t) : StepEffect s t := by
  have ofTmcNext {rest : List Turn} (next : TmcNext s rest) : StepEffect s t :=
    tmcTurn_effect next ((step_of_tmcNext next).symm.trans h)
  rcases step_cases s with
    ⟨hs, -⟩ | ⟨rest, ⟨hs, -⟩ | ⟨w, hs, heq⟩ | ⟨hs, heq⟩ | ⟨r, hs, heq⟩ | ⟨v, hs, heq⟩⟩
  · exact ofTmcNext (.inl ⟨hs, rfl⟩)
  · exact ofTmcNext (.inr hs)
  all_goals
    rw [heq] at h
    cases h
  · exact .hostOffers rest w hs
  · exact .hostWithdraws rest hs
  · exact .envReads rest r hs
  · exact .envWrites rest v hs

/-! ### A micro-operation and its register -/

/-- The register whose transaction a micro-operation issues. -/
def MicroOp.target : MicroOp → RegId
  | .w v => v.reg
  | .r c => c.id
  | .wor c _ => c.id

/-- A micro-operation is a read into `tmp`, or it writes its register. -/
theorem microOp_cases (m : MicroOp) (s : State) :
    (∃ c, m = .r c ∧ microOp m s = latchRead c s)
      ∨ (∀ c, m ≠ .r c) ∧ ∃ v, v.reg = m.target ∧ microOp m s = regWrite .tmc v s := by
  cases m with
  | w v => exact .inr ⟨by simp, v, rfl, rfl⟩
  | r c => exact .inl ⟨c, rfl, rfl⟩
  | wor c k => exact .inr ⟨by simp, ctlVal c (s.tmp ||| k), ctlVal_reg _ _, rfl⟩

/-! ### The micro-programs -/

theorem prog_length_le (i : Instr) : (prog i).length ≤ 8 := by
  rcases Instr.init_or_load i with ⟨m, ps, oa, ob, v, rfl⟩ | ⟨v, rfl⟩ | ⟨v, rfl⟩ | ⟨v, rfl⟩
  · rw [prog_init, initProgram_length]
    split <;> decide
  all_goals simp [prog, loadProgram]

/-- In a program that ends in two merges and has none before, the second half of a merge comes right after
the read of the same register. -/
theorem read_before_wor_of_merges {before : List MicroOp} (hbefore : ∀ c k, .wor c k ∉ before)
    {a b c : CtlReg} {x y k : Byte} {n : Nat}
    (h : (before ++ [.r a, .wor a x, .r b, .wor b y])[n]? = some (.wor c k)) :
    ∃ j, n = j + 1 ∧ (before ++ [.r a, .wor a x, .r b, .wor b y])[j]? = some (.r c) := by
  rcases Nat.lt_or_ge n before.length with hlt | hge
  · rw [List.getElem?_append_left hlt] at h
    exact absurd (List.mem_of_getElem? h) (hbefore c k)
  · obtain ⟨d, rfl⟩ := Nat.exists_eq_add_of_le hge
    rw [List.getElem?_append_right hge, Nat.add_sub_cancel_left] at h
    match d, h with
    | 1, h => cases h; exact ⟨before.length, rfl, by simp⟩
    | 3, h => cases h; exact ⟨before.length + 2, rfl, by simp⟩

/-- The second half of a merge comes right after the read of the same register (R65). -/
theorem read_before_wor {i : Instr} {n : Nat} {c : CtlReg} {k : Byte}
    (h : (prog i)[n]? = some (.wor c k)) : ∃ j, n = j + 1 ∧ (prog i)[j]? = some (.r c) := by
  rcases Instr.init_or_load i with ⟨m, ps, oa, ob, v, rfl⟩ | ⟨v, rfl⟩ | ⟨v, rfl⟩ | ⟨v, rfl⟩
  · rw [prog_init, initProgram, List.append_assoc] at h ⊢
    refine read_before_wor_of_merges (fun c k => ?_) h
    cases topDest m <;> simp [topProgram]
  all_goals
    have hmem := List.mem_of_getElem? h
    simp [prog, loadProgram] at hmem

theorem writable_init (m : InitMode) (ps : Prescaler) (oa ob : OutMode) (v : Word16) :
    writable (.init m ps oa ob v)
      = [.cnt, .cra, .crb] ++ (topProgram (topDest m) v).map MicroOp.target := by
  rcases m with sm | sm <;> cases sm <;> rfl

theorem readable_init (m : InitMode) (ps : Prescaler) (oa ob : OutMode) (v : Word16) :
    readable (.init m ps oa ob v) = [.cra, .crb] := by
  rcases m with sm | sm <;> cases sm <;> rfl

/-- A micro-program reads only registers its row of R25 marks R. -/
theorem mem_readable_of_read_mem_prog {i : Instr} {c : CtlReg} (h : .r c ∈ prog i) :
    c.id ∈ readable i := by
  rcases Instr.init_or_load i with ⟨m, ps, oa, ob, v, rfl⟩ | ⟨v, rfl⟩ | ⟨v, rfl⟩ | ⟨v, rfl⟩
  · rw [readable_init]
    cases c <;> simp [CtlReg.id]
  all_goals simp [prog, loadProgram] at h

/-- A micro-program writes only registers its row of R25 marks W. -/
theorem target_mem_writable {i : Instr} {m : MicroOp} (h : m ∈ prog i) (hwrite : ∀ c, m ≠ .r c) :
    m.target ∈ writable i := by
  rcases Instr.init_or_load i with ⟨mode, ps, oa, ob, v, rfl⟩ | ⟨v, rfl⟩ | ⟨v, rfl⟩ | ⟨v, rfl⟩
  · rw [writable_init, List.mem_append]
    rw [prog_init] at h
    simp only [initProgram, List.mem_append, List.mem_cons, List.not_mem_nil, or_false] at h
    rcases h with (((rfl | rfl | rfl) | htop) | hread | rfl) | hread | rfl
    · exact .inl (.head _)
    · exact .inl (.tail _ (.head _))
    · exact .inl (.tail _ (.tail _ (.head _)))
    · exact .inr (List.mem_map_of_mem htop)
    · exact absurd hread (hwrite _)
    · exact .inl (.tail _ (.head _))
    · exact absurd hread (hwrite _)
    · exact .inl (.tail _ (.tail _ (.head _)))
  all_goals
    obtain rfl : m = _ := by simpa [prog, loadProgram] using h
    simp [MicroOp.target, RegVal.reg, writable]

/-! ### Frames -/

/-- Settles O33: a transaction is of a register its command's row names. -/
theorem accessMatrix : Obligations.AccessMatrix := by
  intro i s t h
  cases exec_effect h with
  | accepts | completes => exact ⟨fun _ _ => rfl, .inl ⟨rfl, rfl⟩⟩
  | transacts busy m hm =>
    have hmem : m ∈ prog i := List.mem_of_getElem? hm
    rcases microOp_cases m s with ⟨c, rfl, heq⟩ | ⟨hwrite, v, hv, heq⟩
    · refine ⟨fun r _ => ?_, .inr (.inr ⟨c.id, mem_readable_of_read_mem_prog hmem, ?_, ?_⟩)⟩ <;>
        simp [microStep, heq]
    · have hrow : v.reg ∈ writable i := hv ▸ target_mem_writable hmem hwrite
      refine ⟨fun r hr => ?_, .inr (.inl ⟨v, hrow, ?_, ?_⟩)⟩
      · have hne : r ≠ v.reg := fun e => hr (e ▸ hrow)
        simp [microStep, heq, Prf.read_write_other _ _ hne]
      all_goals simp [microStep, heq]

/-- Settles O34: the fields that each of the three kinds of step leaves alone. -/
theorem sequencerFrame : Obligations.SequencerFrame := by
  intro i s t h
  cases exec_effect h with
  | accepts idle => simp [idle]
  | completes busy => simp
  | transacts busy m hm =>
    have htmp : (∀ c, (prog i)[s.upc]? ≠ some (.r c)) → (microOp m s).tmp = s.tmp := by
      intro hno
      rcases microOp_cases m s with ⟨c, rfl, -⟩ | ⟨-, v, -, heq⟩
      · exact absurd hm (hno c)
      · rw [heq, regWrite_tmp]
    simpa [microStep, busy] using htmp

/-! ### Events of the TMC -/

@[simp] theorem tmcEvents_append (tr ev : List Event) :
    tmcEvents (tr ++ ev) = tmcEvents tr ++ tmcEvents ev := List.filter_append ..

@[simp] theorem tmcEvents_read_tmc (v : RegVal) : tmcEvents [.read .tmc v] = [.read .tmc v] := rfl
@[simp] theorem tmcEvents_write_tmc (v : RegVal) : tmcEvents [.write .tmc v] = [.write .tmc v] := rfl
@[simp] theorem tmcEvents_read_env (v : RegVal) : tmcEvents [.read .env v] = [] := rfl
@[simp] theorem tmcEvents_write_env (v : RegVal) : tmcEvents [.write .env v] = [] := rfl

/-- The step moved nothing of the sequencer: the TMC waited, or another agent had its turn. -/
structure SequencerUnmoved (s t : State) : Prop where
  busy : t.busy = s.busy
  cmd : t.cmd = s.cmd
  upc : t.upc = s.upc
  tmp : t.tmp = s.tmp
  events : tmcEvents t.trace = tmcEvents s.trace

theorem StepEffect.tmcActs_or_unmoved {s t : State} (h : StepEffect s t) :
    (∃ rest i, (s.busy = true → i = s.cmd) ∧ TmcEffect i { s with sched := rest } t)
      ∨ SequencerUnmoved s t := by
  cases h with
  | tmcActs rest _ i fetched _ effect =>
    exact .inl ⟨rest, i, fun busy => eq_cmd_of_fetch busy fetched, effect⟩
  | tmcWaits | hostOffers | hostWithdraws => exact .inr ⟨rfl, rfl, rfl, rfl, rfl⟩
  | envReads | envWrites => exact .inr ⟨rfl, rfl, rfl, rfl, by simp⟩

/-- Settles O35: an acceptance, a transaction, or `upc` and the TMC's events stay. -/
theorem upcCountsTransactions : Obligations.UpcCountsTransactions := by
  intro s t h
  rcases (step_effect h).tmcActs_or_unmoved with ⟨rest, i, -, effect⟩ | unmoved
  · cases effect with
    | accepts idle => exact .inl ⟨idle, rfl, rfl, rfl⟩
    | completes busy => exact .inr (.inr ⟨fun _ => rfl, rfl, rfl⟩)
    | transacts busy m =>
      refine .inr (.inl ⟨busy, by simpa [microStep] using busy, by simp [microStep], ?_⟩)
      rcases microOp_cases m { s with sched := rest } with ⟨c, -, heq⟩ | ⟨-, v, -, heq⟩ <;>
        simp [microStep, heq]
  · exact .inr (.inr ⟨fun idle => unmoved.busy.trans idle, unmoved.upc, unmoved.events⟩)

/-! ### The registers and the history -/

@[simp] theorem lastValue_append_read (p : Prf) (tr : List Event) (who : Agent) (v : RegVal) (r : RegId) :
    lastValue p (tr ++ [.read who v]) r = lastValue p tr r := by
  simp [lastValue, List.findSome?_cons, Event.writesTo]

theorem lastValue_append_write (p : Prf) (tr : List Event) (who : Agent) (v : RegVal) (r : RegId) :
    lastValue p (tr ++ [.write who v]) r = if v.reg = r then v else lastValue p tr r := by
  by_cases h : v.reg = r <;> simp [lastValue, Event.writesTo, h]

/-- A history stays coherent when a further event is no read, or a read of the latest write. -/
theorem Coherent.append {p : Prf} {tr : List Event} (h : Coherent p tr) {e : Event}
    (he : ∀ who v, e = .read who v → v = lastValue p tr v.reg) : Coherent p (tr ++ [e]) := by
  intro before who v after heq
  rcases List.eq_nil_or_concat after with rfl | ⟨after', last, rfl⟩
  · obtain ⟨rfl, hlast⟩ := List.append_inj' heq rfl
    exact he who v (by simpa using hlast)
  · have hinit : tr ++ [e] = (before ++ .read who v :: after') ++ [last] := by simpa using heq
    exact h before who v after' (List.append_inj' hinit rfl).1

/-- The registers `q` and the history `tr` agree, `p` being the registers after reset (R30, R42). -/
structure Records (p q : Prf) (tr : List Event) : Prop where
  stored : ∀ r, q.read r = lastValue p tr r
  coherent : Coherent p tr

theorem Records.reset (p : Prf) : Records p p [] :=
  ⟨fun _ => rfl, fun before who v after h => by simp at h⟩

theorem Records.read {p q : Prf} {tr : List Event} (h : Records p q tr) (who : Agent) (r : RegId) :
    Records p q (tr ++ [.read who (q.read r)]) where
  stored x := by rw [lastValue_append_read, h.stored x]
  coherent := h.coherent.append fun _ v hv => by
    cases hv
    rw [Prf.read_reg, h.stored r]

theorem Records.write {p q : Prf} {tr : List Event} (h : Records p q tr) (who : Agent) (v : RegVal) :
    Records p (q.write v) (tr ++ [.write who v]) where
  stored x := by
    rw [lastValue_append_write]
    split
    case isTrue hx => rw [← hx, Prf.read_write_same]
    case isFalse hx => rw [Prf.read_write_other _ _ (Ne.symm hx), h.stored x]
  coherent := h.coherent.append fun _ _ hv => nomatch hv

theorem Records.after_microStep {p : Prf} {s : State} (h : Records p s.prf s.trace) (m : MicroOp) :
    Records p (microStep m s).prf (microStep m s).trace := by
  rcases microOp_cases m s with ⟨c, -, heq⟩ | ⟨-, v, -, heq⟩
  · simpa [microStep, heq] using h.read .tmc c.id
  · simpa [microStep, heq] using h.write .tmc v

/-- Every step of any agent keeps the registers and the history in agreement. -/
theorem StepEffect.records {p : Prf} {s t : State} (effect : StepEffect s t)
    (h : Records p s.prf s.trace) : Records p t.prf t.trace := by
  cases effect with
  | tmcActs rest _ _ _ _ act =>
    cases act with
    | accepts | completes => exact h
    | transacts _ m => exact Records.after_microStep (s := { s with sched := rest }) h m
  | tmcWaits | hostOffers | hostWithdraws => exact h
  | envReads _ r => exact h.read .env r
  | envWrites _ v => exact h.write .env v

/-! ### The sequencer inside its micro-program -/

/-- Between the halves of a merge `tmp` is what the TMC's last transaction read (R16): `TmcInv.merging`. -/
def Merging (s : State) : Prop :=
  s.busy = true → ∀ c k, (prog s.cmd)[s.upc]? = some (.wor c k) →
    (tmcEvents s.trace).getLast? = some (.read .tmc (ctlVal c s.tmp))

theorem TmcInv.records {p : Prf} {s : State} (h : TmcInv p s) : Records p s.prf s.trace :=
  ⟨h.stored, h.coherent⟩

theorem TmcInv.of_records {p : Prf} {s : State} (hrec : Records p s.prf s.trace) (hupc : s.upc ≤ 8)
    (hprog : s.busy = true → s.upc ≤ (prog s.cmd).length) (hmerge : Merging s) : TmcInv p s :=
  ⟨hupc, hprog, hrec.stored, hrec.coherent, hmerge⟩

/-- No command begins with the second half of a merge. -/
theorem merging_accept (i : Instr) (s : State) : Merging (accept i s) := by
  intro _ c k hwor
  obtain ⟨j, hj, -⟩ := read_before_wor hwor
  cases hj

/-- A transaction after which the second half of a merge comes was its read. -/
theorem merging_microStep {s : State} {m : MicroOp} (hm : (prog s.cmd)[s.upc]? = some m) :
    Merging (microStep m s) := by
  intro _ c k hwor
  obtain ⟨j, hj, hread⟩ := read_before_wor hwor
  obtain rfl : s.upc = j := by simpa [microStep] using hj
  obtain rfl : m = .r c := by simpa [microStep, hm] using hread
  simp [microStep, microOp, Prf.read_id]

theorem merging_complete (f : Option Cfg) (s : State) : Merging (complete f s) := nofun

theorem Merging.of_unmoved {s t : State} (h : Merging s) (unmoved : SequencerUnmoved s t) :
    Merging t := by
  obtain ⟨hbusy, hcmd, hupc, htmp, hevents⟩ := unmoved
  simpa only [Merging, hbusy, hcmd, hupc, htmp, hevents] using h

/-- Settles O37: each kind of step keeps `Records`, the range of `upc` and `Merging`. -/
theorem invariantKept : Obligations.InvariantKept := by
  intro p s t inv h
  have effect := step_effect h
  have hrec : Records p t.prf t.trace := effect.records inv.records
  rcases effect.tmcActs_or_unmoved with ⟨rest, i, running, act⟩ | unmoved
  · cases act with
    | accepts => exact .of_records hrec (Nat.zero_le _) (fun _ => Nat.zero_le _) (merging_accept i _)
    | completes => exact .of_records hrec inv.upcRange nofun (merging_complete _ _)
    | transacts busy m hm =>
      obtain rfl := running busy
      have hlt : s.upc < (prog s.cmd).length := (List.getElem?_eq_some_iff.1 hm).1
      have hlen := prog_length_le s.cmd
      refine .of_records hrec ?_ (fun _ => ?_) (merging_microStep hm) <;>
        simp only [microStep, advance_upc, advance_cmd, microOp_upc, microOp_cmd] <;> omega
  · refine .of_records hrec (unmoved.upc ▸ inv.upcRange) (fun busy => ?_)
      (Merging.of_unmoved inv.merging unmoved)
    rw [unmoved.upc, unmoved.cmd]
    exact inv.inProgram (unmoved.busy ▸ busy)

/-! ### Reset -/

/-- Settles O10: the states after reset are literals. -/
theorem resetLeaves : Obligations.ResetLeaves :=
  ⟨fun _ => ⟨rfl, rfl, rfl, rfl, rfl⟩, rfl, rfl, rfl⟩

theorem tmcInv_startRun (p : Prf) (turns : List Turn) : TmcInv p (startRun p turns) :=
  .of_records (.reset p) (Nat.zero_le _) nofun nofun

/-- Settles O38: a state after reset is the start of a run with no turn. -/
theorem invariantAtReset : Obligations.InvariantAtReset :=
  ⟨fun p => tmcInv_startRun p [], tmcInv_startRun Prf.reset [], tmcInv_startRun⟩

/-! ### What no rule reads -/

/-- The state without what its ghosts hold. -/
def ghostless (s : State) : State := { s with cfg := .uninit, trace := [] }

/-- A micro-operation reads no ghost. -/
theorem ghostless_microStep (m : MicroOp) (s : State) :
    ghostless (microStep m (ghostless s)) = ghostless (microStep m s) := by
  cases m <;> rfl

theorem sequencer_ghostless (i : Instr) (p : List MicroOp) (f : Option Cfg) (s : State) :
    mapNext ghostless (sequencer i p f (ghostless s)) = mapNext ghostless (sequencer i p f s) := by
  cases hb : s.busy with
  | false => rw [sequencer_idle hb, sequencer_idle (s := ghostless s) hb]; rfl
  | true =>
    cases hm : p[s.upc]? with
    | some m =>
      rw [sequencer_micro hb hm, sequencer_micro (s := ghostless s) hb hm]
      exact congrArg Host.Outcome.next (ghostless_microStep m s)
    | none =>
      by_cases hend : s.upc = p.length
      · rw [sequencer_complete hb hend, sequencer_complete (s := ghostless s) hb hend]; rfl
      · simp [sequencer, ghostless, hb, hm, hend]

theorem exec_ghostless (i : Instr) (s : State) :
    mapNext ghostless (exec i (ghostless s)) = mapNext ghostless (exec i s) := by
  rw [exec_eq_sequencer, exec_eq_sequencer, sequencer_ghostless]

theorem tmcTurn_ghostless (s : State) :
    mapNext ghostless (tmcTurn (ghostless s)) = mapNext ghostless (tmcTurn s) := by
  have hfetch : fetch (ghostless s) = fetch s := rfl
  unfold tmcTurn
  rw [hfetch]
  cases fetch s with
  | nothing => rfl
  | command i => exact exec_ghostless i s
  | invalid why => rfl

theorem step_ghostless (s : State) :
    mapNext ghostless (step (ghostless s)) = mapNext ghostless (step s) := by
  obtain ⟨prf, busy, cmd, upc, tmp, cfg, trace, cmdValid, cmdWord, doneCount, sched⟩ := s
  rcases sched with _ | ⟨turn, rest⟩
  · exact tmcTurn_ghostless _
  · cases turn with
    | tmc => exact tmcTurn_ghostless ⟨_, _, _, _, _, cfg, trace, _, _, _, rest⟩
    | hostOffer | hostWithdraw | envRead | envWrite => rfl

/-- Settles O45: states that agree but for the ghosts are the same state without them. -/
theorem ghostsNeverRead : Obligations.GhostsNeverRead := by
  intro s cfg tr
  exact (step_ghostless { s with cfg := cfg, trace := tr }).symm.trans (step_ghostless s)

/-! ### Nothing but the registers between commands -/

/-- A command goes on from the next state its first step answers. -/
theorem runCommand_succ {n : Nat} {i : Instr} {s t : State} (h : exec i s = .next t) :
    runCommand (n + 1) i s = runCommand n i t := by
  simp only [runCommand, h]

/-- Two states at the same point of the command `i`, with equal registers, and with equal `tmp` where the
next transaction uses it. -/
structure Aligned (i : Instr) (s s' : State) : Prop where
  busy : s.busy = true
  busy' : s'.busy = true
  upc : s.upc = s'.upc
  prf : s.prf = s'.prf
  tmp : ∀ c k, (prog i)[s.upc]? = some (.wor c k) → s.tmp = s'.tmp

theorem aligned_accept (i : Instr) {s s' : State} (h : s.prf = s'.prf) :
    Aligned i (accept i s) (accept i s') :=
  ⟨rfl, rfl, rfl, h, fun c k hwor => by obtain ⟨j, hj, -⟩ := read_before_wor hwor; cases hj⟩

/-- Aligned states issue the same transaction. -/
theorem Aligned.same_transaction {i : Instr} {s s' : State} (h : Aligned i s s') {m : MicroOp}
    (hm : (prog i)[s.upc]? = some m) :
    (microOp m s).prf = (microOp m s').prf
      ∧ ∃ e, (microOp m s).trace = s.trace ++ [e] ∧ (microOp m s').trace = s'.trace ++ [e] := by
  cases m with
  | w v => simp [microOp, h.prf]
  | r c => simp [microOp, h.prf]
  | wor c k => simp [microOp, h.prf, h.tmp c k hm]

/-- After the same transaction aligned states are aligned: `tmp` is used next only after a read. -/
theorem Aligned.after_microStep {i : Instr} {s s' : State} (h : Aligned i s s') {m : MicroOp}
    (hm : (prog i)[s.upc]? = some m) : Aligned i (microStep m s) (microStep m s') where
  busy := by simpa [microStep] using h.busy
  busy' := by simpa [microStep] using h.busy'
  upc := by simpa [microStep] using h.upc
  prf := by simpa [microStep] using (h.same_transaction hm).1
  tmp c k hwor := by
    obtain ⟨j, hj, hread⟩ := read_before_wor hwor
    obtain rfl : s.upc = j := by simpa [microStep] using hj
    obtain rfl : m = .r c := by simpa [hm] using hread
    simp [microStep, microOp, h.prf]

/-- Aligned states complete the command with the same transactions and equal registers. -/
theorem Aligned.completes_alike {i : Instr} {n : Nat} {s s' : State} (h : Aligned i s s')
    (hn : s.upc + n = (prog i).length) :
    ∃ t t' ev, runCommand (n + 1) i s = .next t ∧ runCommand (n + 1) i s' = .next t'
      ∧ t.prf = t'.prf ∧ t.trace = s.trace ++ ev ∧ t'.trace = s'.trace ++ ev := by
  induction n generalizing s s' with
  | zero =>
    have hend : s'.upc = (prog i).length := h.upc ▸ hn
    refine ⟨complete (family i) s, complete (family i) s', [], ?_, ?_, h.prf, by simp, by simp⟩
    · rw [runCommand_succ ((exec_eq_sequencer i s).trans (sequencer_complete h.busy hn))]; rfl
    · rw [runCommand_succ ((exec_eq_sequencer i s').trans (sequencer_complete h.busy' hend))]; rfl
  | succ n ih =>
    obtain ⟨m, hm⟩ : ∃ m, (prog i)[s.upc]? = some m :=
      ⟨_, List.getElem?_eq_getElem (by omega)⟩
    have hm' : (prog i)[s'.upc]? = some m := h.upc ▸ hm
    obtain ⟨-, e, he, he'⟩ := h.same_transaction hm
    obtain ⟨t, t', ev, ht, ht', hprf, htr, htr'⟩ :=
      ih (h.after_microStep hm) (by simp only [microStep, advance_upc, microOp_upc]; omega)
    refine ⟨t, t', e :: ev, ?_, ?_, hprf, ?_, ?_⟩
    · rw [runCommand_succ ((exec_eq_sequencer i s).trans (sequencer_micro h.busy hm)), ht]
    · rw [runCommand_succ ((exec_eq_sequencer i s').trans (sequencer_micro h.busy' hm')), ht']
    · simpa [microStep, he] using htr
    · simpa [microStep, he'] using htr'

/-- Settles O46: acceptance aligns the two states, whatever the earlier commands left. -/
theorem statelessBetweenCommands : Obligations.StatelessBetweenCommands := by
  intro i s s' idle idle' hprf
  have hacc := runCommand_succ (n := (prog i).length + 1)
    ((exec_eq_sequencer i s).trans (sequencer_idle idle))
  have hacc' := runCommand_succ (n := (prog i).length + 1)
    ((exec_eq_sequencer i s').trans (sequencer_idle idle'))
  rw [hacc, hacc']
  exact (aligned_accept i hprf).completes_alike (Nat.zero_add _)

end Sys2Proof.Machine
end

section
/-! PROOFS of the family 20_memory.md: addresses, the turns of ENV, what a step takes off the schedule
and adds to the history, and what a running command does not see. The two theorems on the last rest on
one lemma (`mapNext_sequencer_congr`): two busy states at the same place of the same micro-program step
alike, as far as the effects of a transaction and of a completion are alike. -/

namespace Sys2Proof.Machine

/-! ### Addresses -/

/-- A write is seen in its own register and in no other. -/
theorem Prf.read_write (p : Prf) (v : RegVal) (r : RegId) :
    (p.write v).read r = if r = v.reg then v else p.read r := by
  split
  case isTrue same => rw [same, Prf.read_write_same]
  case isFalse other => exact Prf.read_write_other p v other

theorem addr_eq_iff (a : AddrMap) {r q : RegId} : a.addr r = a.addr q ↔ r = q :=
  ⟨a.injective r q, congrArg a.addr⟩

/-- Settles O9: addresses are equal exactly when the registers are. -/
theorem addressesNameDistinctStorage : Obligations.AddressesNameDistinctStorage := by
  intro a who v s r
  refine ⟨busSelect_addr a r, ?_⟩
  simp only [regWrite_prf, Prf.read_write, addr_eq_iff]

/-! ### The turns of ENV -/

theorem step_of_envRead {s : State} {r : RegId} {rest : List Turn}
    (next : s.sched = .envRead r :: rest) :
    step s = .next (regRead .env r { s with sched := rest }) := by
  simp only [step, takeTurn, next]

theorem step_of_envWrite {s : State} {v : RegVal} {rest : List Turn}
    (next : s.sched = .envWrite v :: rest) :
    step s = .next (regWrite .env v { s with sched := rest }) := by
  simp only [step, takeTurn, next]

/-- Settles O39: the turn is `regRead` or `regWrite` on the state with the turn taken. -/
theorem envTransactions : Obligations.EnvTransactions := by
  refine ⟨fun s r rest next => step_of_envRead next, fun s v rest next => ?_⟩
  exact ⟨_, step_of_envWrite next, Prf.read_write_same s.prf v,
    fun r other => Prf.read_write_other s.prf v other, rfl⟩

/-! ### The history -/

/-- A step with a command issues at most one transaction. -/
theorem TmcEffect.trace_append {i : Instr} {s t : State} (effect : TmcEffect i s t) :
    ∃ ev, t.trace = s.trace ++ ev ∧ ev.length ≤ 1 := by
  cases effect with
  | accepts | completes => exact ⟨[], by simp⟩
  | transacts _ m =>
    obtain ⟨e, he, -⟩ := microOp_trace m s
    exact ⟨[e], he, Nat.le_refl 1⟩

/-- Settles O36: only a transaction, of the TMC or of ENV, is recorded. -/
theorem traceOnlyGrows : Obligations.TraceOnlyGrows := by
  intro s t h
  cases step_effect h with
  | tmcActs _ _ _ _ _ effect => exact effect.trace_append
  | tmcWaits | hostOffers | hostWithdraws => exact ⟨[], by simp⟩
  | envReads | envWrites => exact ⟨_, rfl, Nat.le_refl 1⟩

/-! ### The schedule -/

theorem TmcNext.eq_tail {s : State} {rest : List Turn} (next : TmcNext s rest) : rest = s.sched.tail := by
  rcases next with ⟨hs, rfl⟩ | hs <;> rw [hs] <;> rfl

theorem TmcEffect.sched {i : Instr} {s t : State} (effect : TmcEffect i s t) : t.sched = s.sched := by
  cases effect with
  | accepts | completes => rfl
  | transacts _ m => exact microOp_sched m s

theorem StepEffect.sched {s t : State} (effect : StepEffect s t) : t.sched = s.sched.tail := by
  cases effect with
  | tmcActs _ next _ _ _ act => exact act.sched.trans next.eq_tail
  | tmcWaits _ next => exact next.eq_tail
  | hostOffers _ _ next | hostWithdraws _ next | envReads _ _ next | envWrites _ _ next => rw [next]; rfl

/-- The first step of a run that answers a next state. -/
theorem step_of_run_succ {n : Nat} {s t : State} (h : run (n + 1) s = .next t) :
    ∃ u, step s = .next u ∧ run n u = .next t := by
  cases hs : step s with
  | next u => exact ⟨u, rfl, run_succ hs ▸ h⟩
  | fault r | refused r => simp [run, Host.Core.run, core, hs] at h

/-- A run of `n` steps takes the first `n` turns. -/
theorem run_sched {n : Nat} {s t : State} (h : run n s = .next t) : t.sched = s.sched.drop n := by
  induction n generalizing s with
  | zero => cases h; rfl
  | succ n ih =>
    obtain ⟨u, hstep, hrun⟩ := step_of_run_succ h
    rw [ih hrun, (step_effect hstep).sched, List.drop_tail]

/-- Settles O47: each kind of step takes the turn at the head, and a run takes one turn a step. -/
theorem stepTakesNextTurn : Obligations.StepTakesNextTurn :=
  ⟨fun _ _ h => (step_effect h).sched, fun _ _ _ _ h => run_sched h⟩

/-! ### What a running command does not see -/

/-- When a busy TMC moves, it takes the sequencer's step with its latch. -/
theorem step_of_busy {s : State} {rest : List Turn} (busy : s.busy = true) (next : TmcNext s rest) :
    step s = sequencer s.cmd (prog s.cmd) (family s.cmd) { s with sched := rest } := by
  rw [step_of_tmcNext next, ← exec_eq_sequencer]
  simp only [tmcTurn, fetch, busy, if_true]

/-- A busy TMC past the end of its program has no step. -/
theorem sequencer_stuck {i : Instr} {p : List MicroOp} {fam : Option Cfg} {s : State}
    (busy : s.busy = true) (past : p.length < s.upc) :
    sequencer i p fam s = .fault .sequencerStuck := by
  simp [sequencer, busy, List.getElem?_eq_none past.le, past.ne']

theorem mapNext_id (o : Host.Outcome State Fault Refusal) : mapNext id o = o := by
  cases o <;> rfl

/-- Two busy states at the same `upc` take the same branch of the sequencer, so their steps agree
(after `f` and `g`) when their transactions and completions do. -/
theorem mapNext_sequencer_congr {f g : State → State} {s s' : State} {i : Instr} {p : List MicroOp}
    {fam : Option Cfg} (busy : s.busy = true) (busy' : s'.busy = true) (upc : s'.upc = s.upc)
    (transacts : ∀ m, f (microStep m s') = g (microStep m s))
    (completes : f (complete fam s') = g (complete fam s)) :
    mapNext f (sequencer i p fam s') = mapNext g (sequencer i p fam s) := by
  rcases sequencer_cases i p fam s with
    ⟨idle, -⟩ | ⟨-, m, hm, heq⟩ | ⟨-, ended, heq⟩ | ⟨-, past, heq⟩
  · cases idle.symm.trans busy
  · rw [heq, sequencer_micro busy' (upc ▸ hm)]
    exact congrArg Host.Outcome.next (transacts m)
  · rw [heq, sequencer_complete busy' (upc.trans ended)]
    exact congrArg Host.Outcome.next completes
  · rw [heq, sequencer_stuck busy' (upc ▸ past)]; rfl

/-- Settles O43: a transaction and a completion leave the port alone and do not read it. -/
theorem portUnseenWhileBusy : Obligations.PortUnseenWhileBusy := by
  intro s rest valid w busy next
  rw [step_of_busy busy next,
    step_of_busy (s := { s with cmdValid := valid, cmdWord := w }) busy next,
    ← mapNext_id (sequencer _ _ _ { s with cmdValid := valid, cmdWord := w, sched := rest })]
  exact mapNext_sequencer_congr busy busy rfl (fun m => by cases m <;> rfl) rfl

/-- Settles O44: the next micro-operation is read off the latch and `upc`, and what it reads of the
registers goes only into registers, `tmp` and the Trace. -/
theorem registersNeverSteer : Obligations.RegistersNeverSteer := by
  intro s rest q busy next
  rw [step_of_busy busy next, step_of_busy (s := { s with prf := q }) busy next]
  exact mapNext_sequencer_congr busy busy rfl (fun m => by cases m <;> rfl) rfl

end Sys2Proof.Machine
end

section
/-! PROOFS of the family 30_encoding.md: the codec and the turns of the host. Two facts about the decoder
carry the rest. It accepts the fields of a command as that command (`commandOf_fields`), and every other
field tuple fails a check of R56 (`commandOf_cases`); so a word decodes to a command exactly when it is
that command's word (`decode_eq_command_iff`). The rows of the opcode table are then sets of words of
commands (`matches_opcodeRow_iff`). -/

namespace Sys2Proof

/-! ### The fields of a command -/

/-- The operation code of a family (R49). -/
def InitMode.opCode : InitMode → BitVec 3
  | .fast _ => 0
  | .pc _ => 1

/-- The code of a sub-mode in its family (R51, R52). -/
def InitMode.subCode : InitMode → BitVec 3
  | .fast sm => sm.code
  | .pc sm => sm.code

@[simp] theorem Instr.fields_init (m : InitMode) (ps : Prescaler) (oa ob : OutMode) (v : Word16) :
    (Instr.init m ps oa ob v).fields = initFields m.opCode m.subCode ps oa ob v := by
  rcases m with sm | sm <;> cases sm <;> rfl

theorem wordOf_initFields (op sm : BitVec 3) (ps : Prescaler) (oa ob : OutMode) (v : Word16) :
    wordOf (initFields op sm ps oa ob v)
      = op.setWidth 32 <<< 26 ||| ps.code.setWidth 32 <<< 23 ||| sm.setWidth 32 <<< 20
        ||| oa.code.setWidth 32 <<< 18 ||| ob.code.setWidth 32 <<< 16 ||| v.setWidth 32 := by
  simp [wordOf, initFields]

theorem wordOf_loadFields (op : BitVec 3) (v : Word16) :
    wordOf (loadFields op v) = op.setWidth 32 <<< 26 ||| v.setWidth 32 := by
  simp [wordOf, loadFields]

theorem encode_init (m : InitMode) (ps : Prescaler) (oa ob : OutMode) (v : Word16) :
    encode (.init m ps oa ob v) = wordOf (initFields m.opCode m.subCode ps oa ob v) :=
  congrArg wordOf (Instr.fields_init m ps oa ob v)

/-- The laws of the fifteen variants as one statement. -/
theorem Laws.Pattern.holds (i : Instr) : Laws.Pattern.Statement i := by
  cases i with
  | initFastBit8 => exact Laws.Pattern.initFastBit8 ..
  | initFastBit9 => exact Laws.Pattern.initFastBit9 ..
  | initFastBit10 => exact Laws.Pattern.initFastBit10 ..
  | initFastTopCmpa => exact Laws.Pattern.initFastTopCmpa ..
  | initFastTopTopr => exact Laws.Pattern.initFastTopTopr ..
  | initPcBit8 => exact Laws.Pattern.initPcBit8 ..
  | initPcBit9 => exact Laws.Pattern.initPcBit9 ..
  | initPcBit10 => exact Laws.Pattern.initPcBit10 ..
  | initPcTopCmpa => exact Laws.Pattern.initPcTopCmpa ..
  | initPcTopTopr => exact Laws.Pattern.initPcTopTopr ..
  | initPcFcTopCmpa => exact Laws.Pattern.initPcFcTopCmpa ..
  | initPcFcTopTopr => exact Laws.Pattern.initPcFcTopTopr ..
  | setCmpa => exact Laws.Pattern.setCmpa ..
  | setCmpb => exact Laws.Pattern.setCmpb ..
  | setTop => exact Laws.Pattern.setTop ..

/-! ### The reserved codes and the checks of R56 -/

theorem opCode_cases (c : BitVec 3) :
    c = 0 ∨ c = 1 ∨ c = 2 ∨ c = 3 ∨ c = 4 ∨ c = 5 ∨ c = 6 ∨ c = 7 := by
  revert c; decide

theorem lt_toNat_iff_opReserved (c : BitVec 3) : 4 < c.toNat ↔ c = 5 ∨ c = 6 ∨ c = 7 := by
  revert c; decide

theorem lt_toNat_iff_eq_seven (c : BitVec 3) : 6 < c.toNat ↔ c = 7 := by
  revert c; decide

theorem FastSub.ofCode?_eq_none_iff (c : BitVec 3) :
    FastSub.ofCode? c = none ↔ c = 5 ∨ c = 6 ∨ c = 7 := by
  revert c; decide

theorem PcSub.ofCode?_eq_none_iff (c : BitVec 3) : PcSub.ofCode? c = none ↔ c = 7 := by
  revert c; decide

/-- The five checks, negated: the clauses (a) to (e) of R56 on fields. -/
theorem CmdFields.wellFormed_eq_false_iff (f : CmdFields) :
    f.wellFormed = false ↔
      f.rsv ≠ 0 ∨ (f.op = 5 ∨ f.op = 6 ∨ f.op = 7) ∨ (f.op = 0 ∧ (f.sm = 5 ∨ f.sm = 6 ∨ f.sm = 7))
        ∨ (f.op = 1 ∧ f.sm = 7)
        ∨ ((f.op = 2 ∨ f.op = 3 ∨ f.op = 4) ∧ (f.ps ≠ 0 ∨ f.sm ≠ 0 ∨ f.oa ≠ 0 ∨ f.ob ≠ 0)) := by
  simp [wellFormed, reservedBitsClear, operationDefined, fastSubModeDefined, pcSubModeDefined,
    loadOperandsZero, lt_toNat_iff_opReserved, lt_toNat_iff_eq_seven, or_assoc,
    Bool.and_eq_false_iff, -Bool.and_eq_false_imp]

/-! ### The decoder -/

theorem commandOf_initFields (m : InitMode) (ps : Prescaler) (oa ob : OutMode) (v : Word16) :
    commandOf (initFields m.opCode m.subCode ps oa ob v) = .command (.init m ps oa ob v) := by
  rcases m with sm | sm <;>
    simp [commandOf, initFields, InitMode.opCode, InitMode.subCode, Instr.init]

/-- The decoder accepts the fields of a command as that command. -/
theorem commandOf_fields (i : Instr) : commandOf i.fields = .command i := by
  obtain ⟨m, ps, oa, ob, v, rfl⟩ | ⟨v, rfl⟩ | ⟨v, rfl⟩ | ⟨v, rfl⟩ := Machine.Instr.init_or_load i
  · rw [Instr.fields_init, commandOf_initFields]
  all_goals rfl

/-- Fields with nothing in `rsv` are those of an initialisation word: `ps`, `oa` and `ob` have no
reserved code (R50, R53). -/
theorem eq_initFields {f : CmdFields} (hrsv : f.rsv = 0) :
    f = initFields f.op f.sm (.ofCode f.ps) (.ofCode f.oa) (.ofCode f.ob) f.val := by
  simp only [initFields, Prescaler.code_ofCode, OutMode.code_ofCode, ← hrsv]

theorem eq_loadFields {f : CmdFields} (hrsv : f.rsv = 0) (hps : f.ps = 0) (hsm : f.sm = 0)
    (hoa : f.oa = 0) (hob : f.ob = 0) : f = loadFields f.op f.val := by
  cases f
  simp_all only [loadFields]

/-- Fields with the operation code of a load are those of a load word, or clause (e) of R56 rejects
them. -/
theorem loadOf_cases {f : CmdFields} (hrsv : f.rsv = 0) (hop : f.op = 2 ∨ f.op = 3 ∨ f.op = 4)
    (i : Instr) :
    f = loadFields f.op f.val ∨ f.wellFormed = false ∧ ∃ why, loadOf f i = .invalid why := by
  by_cases hzero : f.ps = 0 ∧ f.sm = 0 ∧ f.oa = 0 ∧ f.ob = 0
  · obtain ⟨hps, hsm, hoa, hob⟩ := hzero
    exact .inl (eq_loadFields hrsv hps hsm hoa hob)
  · have some_ne : f.ps ≠ 0 ∨ f.sm ≠ 0 ∨ f.oa ≠ 0 ∨ f.ob ≠ 0 := by simpa only [not_and_or] using hzero
    have ill := f.wellFormed_eq_false_iff.mpr (.inr (.inr (.inr (.inr ⟨hop, some_ne⟩))))
    exact .inr ⟨ill, _, if_neg hzero⟩

/-- Fields are those of a command, or they fail a check of R56 and the decoder rejects them. -/
theorem commandOf_cases (f : CmdFields) :
    (∃ i : Instr, f = i.fields) ∨ f.wellFormed = false ∧ ∃ why, commandOf f = .invalid why := by
  by_cases hrsv : f.rsv = 0
  case neg => exact .inr ⟨f.wellFormed_eq_false_iff.mpr (.inl hrsv), _, if_pos hrsv⟩
  have hinit := eq_initFields hrsv
  have hload := loadOf_cases hrsv
  rw [commandOf, if_neg (not_not.mpr hrsv)]
  split_ifs with h0 h1 h2 h3 h4
  · cases hsm : FastSub.ofCode? f.sm with
    | some sm =>
      rw [h0, ← FastSub.code_of_ofCode? hsm] at hinit
      exact .inl ⟨_, hinit.trans (Instr.fields_init (.fast sm) ..).symm⟩
    | none =>
      have reserved := (FastSub.ofCode?_eq_none_iff _).mp hsm
      exact .inr ⟨f.wellFormed_eq_false_iff.mpr (.inr (.inr (.inl ⟨h0, reserved⟩))), _, rfl⟩
  · cases hsm : PcSub.ofCode? f.sm with
    | some sm =>
      rw [h1, ← PcSub.code_of_ofCode? hsm] at hinit
      exact .inl ⟨_, hinit.trans (Instr.fields_init (.pc sm) ..).symm⟩
    | none =>
      have reserved := (PcSub.ofCode?_eq_none_iff _).mp hsm
      exact .inr ⟨f.wellFormed_eq_false_iff.mpr (.inr (.inr (.inr (.inl ⟨h1, reserved⟩)))), _, rfl⟩
  · exact (hload (.inl h2) _).imp_left fun h => ⟨.setCmpa f.val, by rw [h, h2]; rfl⟩
  · exact (hload (.inr (.inl h3)) _).imp_left fun h => ⟨.setCmpb f.val, by rw [h, h3]; rfl⟩
  · exact (hload (.inr (.inr h4)) _).imp_left fun h => ⟨.setTop f.val, by rw [h, h4]; rfl⟩
  · have reserved : f.op = 5 ∨ f.op = 6 ∨ f.op = 7 := by
      simpa only [h0, h1, h2, h3, h4, false_or] using opCode_cases f.op
    exact .inr ⟨f.wellFormed_eq_false_iff.mpr (.inr (.inl reserved)), _, rfl⟩

/-- A word decodes to a command exactly when it is that command's word. -/
theorem decode_eq_command_iff {w : CmdWord} {i : Instr} : decode w = .command i ↔ w = encode i := by
  constructor
  · intro h
    obtain ⟨j, hj⟩ | ⟨-, why, hwhy⟩ := commandOf_cases (fieldsOf w)
    · have hij : Decoded.command j = .command i := by rw [← commandOf_fields j, ← hj]; exact h
      cases hij
      exact fieldsOf_injective (hj.trans (fieldsOf_encode i).symm)
    · cases h.symm.trans hwhy
  · rintro rfl
    rw [decode, fieldsOf_encode, commandOf_fields]

/-- A word is invalid exactly when its fields fail a check of R56. -/
theorem decode_invalid_iff_wellFormed (w : CmdWord) :
    (∃ why, decode w = .invalid why) ↔ (fieldsOf w).wellFormed = false := by
  constructor
  · rintro ⟨why, h⟩
    obtain ⟨i, hi⟩ | ⟨hf, -⟩ := commandOf_cases (fieldsOf w)
    · rw [decode, hi, commandOf_fields] at h
      cases h
    · exact hf
  · intro hf
    obtain ⟨i, hi⟩ | ⟨-, h⟩ := commandOf_cases (fieldsOf w)
    · rw [hi, (Laws.Pattern.holds i).2] at hf
      cases hf
    · exact h

/-- A word is invalid exactly when it is no command's word. -/
theorem decode_invalid_iff_ne_encode (w : CmdWord) :
    (∃ why, decode w = .invalid why) ↔ ∀ i, w ≠ encode i := by
  simp only [ne_eq, ← decode_eq_command_iff]
  cases decode w <;> simp

/-- Settles O1: a word decodes to a command exactly when it is that command's word. -/
theorem encodeDecodeInverse : Obligations.EncodeDecodeInverse :=
  ⟨fun sm _ _ _ _ => (encode_init (.fast sm) ..).trans (wordOf_initFields ..),
    fun sm _ _ _ _ => (encode_init (.pc sm) ..).trans (wordOf_initFields ..),
    wordOf_loadFields 2, wordOf_loadFields 3, wordOf_loadFields 4,
    fun _ => decode_eq_command_iff.mpr rfl, fun _ _ h => (decode_eq_command_iff.mp h).symm, by decide⟩

/-! ### The reserved words -/

theorem append_ne_zero_iff {m n : Nat} (x : BitVec m) (y : BitVec n) :
    x ++ y ≠ 0 ↔ x ≠ 0 ∨ y ≠ 0 := by
  rw [← not_and_or, not_iff_not]
  constructor
  · intro h
    have hx := BitVec.extractLsb'_append_eq_left (a := x) (b := y)
    have hy := BitVec.extractLsb'_append_eq_right (a := x) (b := y)
    rw [h] at hx hy
    exact ⟨by simpa using hx.symm, by simpa using hy.symm⟩
  · rintro ⟨rfl, rfl⟩
    exact BitVec.zero_append_zero

/-- Bits 25:16 of a word are its fields `ps`, `sm`, `oa` and `ob`. -/
theorem loadOperandBits_eq_append (w : CmdWord) :
    w.extractLsb' 16 10
      = (fieldsOf w).ps ++ ((fieldsOf w).sm ++ ((fieldsOf w).oa ++ (fieldsOf w).ob)) := by
  simp only [fieldsOf, BitVec.extractLsb'_append_extractLsb'_eq_extractLsb']

theorem loadOperandBits_ne_zero_iff (w : CmdWord) :
    w.extractLsb' 16 10 ≠ 0 ↔
      (fieldsOf w).ps ≠ 0 ∨ (fieldsOf w).sm ≠ 0 ∨ (fieldsOf w).oa ≠ 0 ∨ (fieldsOf w).ob ≠ 0 := by
  rw [loadOperandBits_eq_append]
  exact (append_ne_zero_iff _ _).trans <| or_congr_right <|
    (append_ne_zero_iff _ _).trans <| or_congr_right <| append_ne_zero_iff _ _

/-- Settles O2: the decoder rejects what fails a check, and the checks are the clauses. -/
theorem reservedExactly : Obligations.ReservedExactly := by
  intro w
  rw [decode_invalid_iff_wellFormed, CmdFields.wellFormed_eq_false_iff, loadOperandBits_ne_zero_iff,
    or_assoc, or_assoc]
  rfl

/-! ### The opcode table -/

/-- The mask of the INIT rows keeps `rsv`, `op` and `sm`. -/
theorem fieldsOf_and_initMask (w : CmdWord) :
    fieldsOf (w &&& 0xFC700000#32)
      = ⟨(fieldsOf w).rsv, (fieldsOf w).op, 0, (fieldsOf w).sm, 0, 0, 0⟩ := by
  have h7 : ∀ x : BitVec 3, x &&& 7#3 = x := by decide
  rw [fieldsOf_and, fieldsOf_initMask]
  simp [h7]

/-- The mask of the SET rows keeps everything but `val`. -/
theorem fieldsOf_and_loadMask (w : CmdWord) :
    fieldsOf (w &&& 0xFFFF0000#32) = { fieldsOf w with val := 0 } := by
  have h7 : ∀ x : BitVec 3, x &&& 7#3 = x := by decide
  have h3 : ∀ x : BitVec 2, x &&& 3#2 = x := by decide
  rw [fieldsOf_and, fieldsOf_loadMask]
  simp [h7, h3]

/-- A word matches a row with the mask of the INIT rows exactly when it is an initialisation word with
the row's codes. -/
theorem matches_initMask_iff (w : CmdWord) (op sm : BitVec 3) :
    w &&& 0xFC700000#32 = wordOf ⟨0, op, 0, sm, 0, 0, 0⟩
      ↔ ∃ ps oa ob v, w = wordOf (initFields op sm ps oa ob v) := by
  constructor
  · intro h
    have hfields := congrArg fieldsOf h
    rw [fieldsOf_and_initMask, fieldsOf_wordOf, CmdFields.mk.injEq] at hfields
    obtain ⟨hrsv, rfl, -, rfl, -⟩ := hfields
    exact ⟨_, _, _, _, by rw [← eq_initFields hrsv, wordOf_fieldsOf]⟩
  · rintro ⟨ps, oa, ob, v, rfl⟩
    exact initMask_wordOf ..

/-- A word matches a row with the mask of the SET rows exactly when it is a load word with the row's
operation code. -/
theorem matches_loadMask_iff (w : CmdWord) (op : BitVec 3) :
    w &&& 0xFFFF0000#32 = wordOf ⟨0, op, 0, 0, 0, 0, 0⟩ ↔ ∃ v, w = wordOf (loadFields op v) := by
  constructor
  · intro h
    have hfields := congrArg fieldsOf h
    rw [fieldsOf_and_loadMask, fieldsOf_wordOf, CmdFields.mk.injEq] at hfields
    obtain ⟨hrsv, rfl, hps, hsm, hoa, hob, -⟩ := hfields
    exact ⟨_, by rw [← eq_loadFields hrsv hps hsm hoa hob, wordOf_fieldsOf]⟩
  · rintro ⟨v, rfl⟩
    exact loadMask_wordOf ..

/-- The row of the opcode table of a command's variant: `mask` and `match` (R63). -/
def opcodeRow (i : Instr) : CmdWord × CmdWord := (opcodeMask i, opcodeMatch i)

theorem opcodeRow_init (m : InitMode) (ps : Prescaler) (oa ob : OutMode) (v : Word16) :
    opcodeRow (.init m ps oa ob v) = (0xFC700000#32, wordOf ⟨0, m.opCode, 0, m.subCode, 0, 0, 0⟩) := by
  rcases m with sm | sm <;> cases sm <;> rfl

/-- What matches the row of a variant is the word of a command. -/
theorem eq_encode_of_matches_opcodeRow {w : CmdWord} {i : Instr}
    (h : w &&& (opcodeRow i).1 = (opcodeRow i).2) : ∃ j, w = encode j := by
  obtain ⟨m, ps, oa, ob, v, rfl⟩ | ⟨v, rfl⟩ | ⟨v, rfl⟩ | ⟨v, rfl⟩ := Machine.Instr.init_or_load i
  · rw [opcodeRow_init] at h
    obtain ⟨ps', oa', ob', v', rfl⟩ := (matches_initMask_iff ..).mp h
    exact ⟨_, (encode_init ..).symm⟩
  · obtain ⟨v', rfl⟩ := (matches_loadMask_iff w 2).mp h
    exact ⟨.setCmpa v', rfl⟩
  · obtain ⟨v', rfl⟩ := (matches_loadMask_iff w 3).mp h
    exact ⟨.setCmpb v', rfl⟩
  · obtain ⟨v', rfl⟩ := (matches_loadMask_iff w 4).mp h
    exact ⟨.setTop v', rfl⟩

/-- One command of each variant, in the order of the opcode table. -/
def variants : List Instr :=
  [FastSub.bit8, .bit9, .bit10, .topCmpa, .topTopr].map (.initFast · .stop .disc .disc 0)
    ++ [PcSub.bit8, .bit9, .bit10, .topCmpa, .topTopr, .fcTopCmpa, .fcTopTopr].map
      (.initPc · .stop .disc .disc 0)
    ++ [.setCmpa 0, .setCmpb 0, .setTop 0]

theorem opcodeRow_mem_variants (i : Instr) : opcodeRow i ∈ variants.map opcodeRow := by
  cases i <;> simp [variants, opcodeRow, opcodeMask, opcodeMatch, Instr.initFast, Instr.initPc]

/-- Two rows share a word only if their matches agree under both masks. -/
theorem not_matches_both {w m n a b : CmdWord} (h : a &&& n ≠ b &&& m) :
    ¬ (w &&& m = a ∧ w &&& n = b) := by
  rintro ⟨rfl, rfl⟩
  exact h (by rw [BitVec.and_assoc, BitVec.and_comm m n, BitVec.and_assoc])

/-- Settles O3: two rows differ in a bit that both masks keep, and a row is matched by words of commands
only, each of which matches the row of its variant. -/
theorem opcodePatternsPartition : Obligations.OpcodePatternsPartition := by
  unfold Obligations.OpcodePatternsPartition
  intro rows
  have hrows : rows = variants.map opcodeRow := rfl
  constructor
  · have hdiffer : rows.Pairwise fun a b => a.2 &&& b.1 ≠ b.2 &&& a.1 := by decide
    exact hdiffer.imp fun h _ => not_matches_both h
  · intro w
    rw [decode_invalid_iff_ne_encode, hrows]
    constructor
    · intro hne r hr hmatch
      obtain ⟨i, -, rfl⟩ := List.mem_map.mp hr
      obtain ⟨j, hj⟩ := eq_encode_of_matches_opcodeRow hmatch
      exact hne j hj
    · rintro hno i rfl
      exact hno _ (opcodeRow_mem_variants i) (Laws.Pattern.holds i).1

/-! ### Sample words and codes -/

/-- Settles O4: closed words, each decoded. -/
theorem sampleWordsDecode : Obligations.SampleWordsDecode := by
  unfold Obligations.SampleWordsDecode
  decide

/-- Settles O5: the codes are their positions, and the default positions shift them. -/
theorem operandCodes : Obligations.OperandCodes :=
  ⟨rfl, rfl, rfl, rfl, FastSub.ofCode?_eq_none_iff, PcSub.ofCode?_eq_none_iff,
    Machine.outBits_layout, Machine.csBits_layout⟩

end Sys2Proof

namespace Sys2Proof.Machine

/-! ### The turns of the host -/

theorem step_of_hostOffer {s : State} {w : CmdWord} {rest : List Turn}
    (next : s.sched = .hostOffer w :: rest) :
    step s = .next (hostOffer w { s with sched := rest }) := by
  simp only [step, takeTurn, next]

theorem step_of_hostWithdraw {s : State} {rest : List Turn} (next : s.sched = .hostWithdraw :: rest) :
    step s = .next (hostWithdraw { s with sched := rest }) := by
  simp only [step, takeTurn, next]

/-- Settles O41: the turn is `hostOffer` or `hostWithdraw` on the state with the turn taken. -/
theorem hostTurns : Obligations.HostTurns :=
  ⟨fun _ _ _ next => step_of_hostOffer next, fun _ _ next => step_of_hostWithdraw next⟩

end Sys2Proof.Machine
end

section
/-! PROOFS of the family 40_init_common.md: what is common to the initialisations. The three step rules
are equations of `exec`. A whole command run alone is an acceptance, the transactions of its micro-program
in order (`transactions`) and a completion (`runCommand_alone`); for an initialisation that gives R75 and
R76 in full. Under interference one account is kept from a busy state to the completion (`Accounted`): what
the TMC's events are, and that without an ENV write the registers are those of the transactions alone. -/

namespace Sys2Proof.Machine

/-! ### The resolution encoder -/

/-- Settles O8: the rows of the two tables, placed at the default positions. -/
theorem resolutionEncoderTable : Obligations.ResolutionEncoderTable := by
  unfold Obligations.ResolutionEncoderTable
  decide

/-! ### The three step rules as equations of `exec` -/

theorem exec_of_idle {i : Instr} {s : State} (idle : s.busy = false) : exec i s = .next (accept i s) :=
  (exec_eq_sequencer i s).trans (sequencer_idle idle)

theorem exec_of_micro {i : Instr} {s : State} {m : MicroOp} (busy : s.busy = true)
    (hm : (prog i)[s.upc]? = some m) : exec i s = .next (microStep m s) :=
  (exec_eq_sequencer i s).trans (sequencer_micro busy hm)

theorem exec_of_ended {i : Instr} {s : State} (busy : s.busy = true) (ended : s.upc = (prog i).length) :
    exec i s = .next (complete (family i) s) :=
  (exec_eq_sequencer i s).trans (sequencer_complete busy ended)

theorem family_initFast (sm : FastSub) (ps : Prescaler) (oa ob : OutMode) (v : Word16) :
    family (.initFast sm ps oa ob v) = some .fast := by
  cases sm <;> rfl

theorem family_initPc (sm : PcSub) (ps : Prescaler) (oa ob : OutMode) (v : Word16) :
    family (.initPc sm ps oa ob v) = some .pc := by
  cases sm <;> rfl

theorem fetch_of_busy {s : State} (busy : s.busy = true) : fetch s = .command s.cmd := if_pos busy

theorem fetch_of_command {s : State} {i : Instr} (idle : s.busy = false) (valid : s.cmdValid = true)
    (word : decode s.cmdWord = .command i) : fetch s = .command i := by
  simp [fetch, idle, valid, word]

theorem fetch_of_invalid {s : State} {why : Invalid} (idle : s.busy = false) (valid : s.cmdValid = true)
    (word : decode s.cmdWord = .invalid why) : fetch s = .invalid why := by
  simp [fetch, idle, valid, word]

/-- When the TMC moves, it runs the command it fetches. -/
theorem step_of_fetch {s : State} {rest : List Turn} {i : Instr} (next : TmcNext s rest)
    (fetched : fetch s = .command i) : step s = exec i { s with sched := rest } := by
  have hfetch : fetch { s with sched := rest } = .command i := fetched
  rw [step_of_tmcNext next, tmcTurn, hfetch]

theorem step_refuses {s : State} {rest : List Turn} {why : Invalid} (next : TmcNext s rest)
    (fetched : fetch s = .invalid why) : step s = .refused (.invalidCommand why) := by
  have hfetch : fetch { s with sched := rest } = .invalid why := fetched
  rw [step_of_tmcNext next, tmcTurn, hfetch]

theorem StepEffect.cmd_of_busy {s t : State} (effect : StepEffect s t) (busy : s.busy = true) :
    t.cmd = s.cmd := by
  rcases effect.tmcActs_or_unmoved with ⟨rest, i, -, act⟩ | unmoved
  · cases act with
    | accepts idle => cases busy.symm.trans idle
    | transacts _ m => simp [microStep]
    | completes => rfl
  · exact unmoved.cmd

/-- The step of a busy TMC leaves the port as it is. -/
theorem port_of_busy_step {s t : State} {rest : List Turn} (busy : s.busy = true)
    (next : TmcNext s rest) (h : step s = .next t) :
    t.cmdValid = s.cmdValid ∧ t.cmdWord = s.cmdWord := by
  rw [step_of_fetch next (fetch_of_busy busy)] at h
  cases exec_effect h with
  | accepts idle => cases busy.symm.trans idle
  | transacts _ m => simp [microStep]
  | completes => exact ⟨rfl, rfl⟩

/-- Settles O13: the step is `exec` of the command fetched, which accepts it. -/
theorem acceptanceStep : Obligations.AcceptanceStep := by
  refine ⟨fun s rest i next idle valid word => ?_, fun s rest why next idle valid word => ?_,
    fun s t busy h => ?_⟩
  · have hexec : exec i { s with sched := rest } = .next (accept i { s with sched := rest }) :=
      exec_of_idle idle
    refine ⟨_, (step_of_fetch next (fetch_of_command idle valid word)).trans hexec, hexec, ?_⟩
    simp [cmdReady, idle]
  · exact step_refuses next (fetch_of_invalid idle valid word)
  · refine ⟨by simp [cmdReady, busy], (step_effect h).cmd_of_busy busy, fun rest next => ?_⟩
    exact port_of_busy_step busy next h

/-- Settles O14: the transaction of each micro-operation; only a completion makes the TMC idle. -/
theorem microStepTransaction : Obligations.MicroStepTransaction := by
  refine ⟨fun i s v busy hm => exec_of_micro busy hm, fun i s c busy hm => exec_of_micro busy hm,
    fun i s c k busy hm => exec_of_micro busy hm, fun s t busy h => ?_⟩
  refine ⟨(step_effect h).cmd_of_busy busy, fun idle => ?_⟩
  rcases (step_effect h).tmcActs_or_unmoved with ⟨rest, i, running, act⟩ | unmoved
  · cases act with
    | accepts => cases idle
    | transacts _ m => simp [microStep, busy] at idle
    | completes _ ended => exact running busy ▸ ended
  · cases busy.symm.trans (unmoved.busy.symm.trans idle)

/-- Settles O15: the completion with the family of the command; an acceptance overwrites the latch and
`upc` and leaves `tmp`. -/
theorem completionStep : Obligations.CompletionStep := by
  refine ⟨fun sm ps oa ob v s busy ended => ?_, fun sm ps oa ob v s busy ended => ?_,
    fun v s i hi busy ended => ?_, fun j s cmd upc tmp idle => ?_⟩
  · rw [exec_of_ended busy ended, family_initFast]; rfl
  · rw [exec_of_ended busy ended, family_initPc]; rfl
  · rcases hi with rfl | rfl | rfl <;> exact exec_of_ended busy ended
  · rw [exec_of_idle idle, exec_of_idle (s := { s with cmd := cmd, upc := upc, tmp := tmp }) idle]; rfl

/-- Settles O16: the TMC moves when no turn is scheduled or at its turn, and runs what it fetches. -/
theorem stepRunsCommand : Obligations.StepRunsCommand := by
  refine ⟨fun s empty busy => ?_, fun s i empty idle valid word => ?_,
    fun s rest turn busy => step_of_fetch (.inr turn) (fetch_of_busy busy),
    fun s i rest turn idle valid word => step_of_fetch (.inr turn) (fetch_of_command idle valid word),
    fun s nbits w i word => ?_⟩
  · exact (step_of_fetch (.inl ⟨empty, rfl⟩) (fetch_of_busy busy)).trans (by rw [← empty])
  · exact (step_of_fetch (.inl ⟨empty, rfl⟩) (fetch_of_command idle valid word)).trans (by rw [← empty])
  · have hword : decode (BitVec.ofNat 32 (w % 2 ^ nbits)) = .command i := by
      unfold decodeTableWord at word
      split at word
      · cases word; assumption
      · cases word
    exact step_of_fetch (s := s.withFetchWord nbits w) (.inl ⟨rfl, rfl⟩)
      (fetch_of_command rfl rfl hword)

theorem prog_init_zero (m : InitMode) (ps : Prescaler) (oa ob : OutMode) (v : Word16) :
    (prog (.init m ps oa ob v))[0]? = some (.w (.cnt 0)) := by
  rw [prog_init]; rfl

/-- Settles O23: every initialisation's micro-program begins with W(CNT, 0). -/
theorem counterResetFirst : Obligations.CounterResetFirst := by
  intro m ps oa ob v s busy first
  have hm : (prog (.init m ps oa ob v))[s.upc]? = some (.w (.cnt 0)) := first ▸ prog_init_zero ..
  exact ⟨_, exec_of_micro busy hm, rfl, rfl⟩

/-! ### A command run alone -/

/-- The micro-operations `ops` issued one after the other. -/
def transactions : List MicroOp → State → State
  | [], s => s
  | m :: ops, s => transactions ops (microStep m s)

/-- A field that no transaction changes. -/
theorem transactions_frame {α : Type} (f : State → α) (hf : ∀ m s, f (microStep m s) = f s)
    (ops : List MicroOp) (s : State) : f (transactions ops s) = f s := by
  induction ops generalizing s with
  | nil => rfl
  | cons m ops ih => exact (ih _).trans (hf m s)

section transactions
variable (ops : List MicroOp) (s : State)
@[simp] theorem transactions_busy : (transactions ops s).busy = s.busy :=
  transactions_frame State.busy (by simp [microStep]) ops s
@[simp] theorem transactions_cmd : (transactions ops s).cmd = s.cmd :=
  transactions_frame State.cmd (by simp [microStep]) ops s
@[simp] theorem transactions_cfg : (transactions ops s).cfg = s.cfg :=
  transactions_frame State.cfg (by simp [microStep]) ops s
@[simp] theorem transactions_doneCount : (transactions ops s).doneCount = s.doneCount :=
  transactions_frame State.doneCount (by simp [microStep]) ops s
end transactions

@[simp] theorem transactions_upc (ops : List MicroOp) (s : State) :
    (transactions ops s).upc = s.upc + ops.length := by
  induction ops generalizing s with
  | nil => rfl
  | cons m ops ih =>
    rw [transactions, ih]
    simp only [microStep, advance_upc, microOp_upc, List.length_cons]
    omega

/-- What the transactions leave in the registers depends on the registers and `tmp` only. -/
theorem transactions_prf_congr (ops : List MicroOp) {s s' : State} (hprf : s.prf = s'.prf)
    (htmp : s.tmp = s'.tmp) : (transactions ops s).prf = (transactions ops s').prf := by
  induction ops generalizing s s' with
  | nil => exact hprf
  | cons m ops ih => apply ih <;> cases m <;> simp [microStep, microOp, hprf, htmp]

/-- A busy TMC run alone issues the transactions that come next in its micro-program. -/
theorem runCommand_transactions {i : Instr} {ops after : List MicroOp} {s : State} (busy : s.busy = true)
    (h : (prog i).drop s.upc = ops ++ after) : runCommand ops.length i s = .next (transactions ops s) := by
  induction ops generalizing s with
  | nil => rfl
  | cons m ops ih =>
    have hm : (prog i)[s.upc]? = some m := by rw [← List.head?_drop, h]; rfl
    rw [List.length_cons, runCommand_succ (exec_of_micro busy hm)]
    refine ih (by simpa [microStep] using busy) ?_
    simp only [microStep, advance_upc, microOp_upc]
    rw [← List.tail_drop, h]; rfl

/-- The state after the command `i` has run alone from an idle state. -/
def afterCommand (i : Instr) (s : State) : State :=
  complete (family i) (transactions (prog i) (accept i s))

/-- A command run alone is accepted, issues the transactions of its micro-program, and completes. -/
theorem runCommand_alone (i : Instr) {s : State} (idle : s.busy = false) :
    runCommand ((prog i).length + 2) i s = .next (afterCommand i s) := by
  have hops : runCommand (prog i).length i (accept i s) = .next (transactions (prog i) (accept i s)) :=
    runCommand_transactions rfl (after := []) (by simp)
  have hend : exec i (transactions (prog i) (accept i s)) = .next (afterCommand i s) :=
    exec_of_ended (by simp) (by simp)
  rw [runCommand_succ (exec_of_idle idle), runCommand_add hops, runCommand_succ hend]; rfl

@[simp] theorem afterCommand_busy (i : Instr) (s : State) : (afterCommand i s).busy = false := rfl

@[simp] theorem afterCommand_cfg (i : Instr) (s : State) :
    (afterCommand i s).cfg = (family i).getD s.cfg := by
  simp [afterCommand]

/-- The registers of R75. -/
theorem transactions_init_prf (m : InitMode) (ps : Prescaler) (oa ob : OutMode) (v : Word16) (s : State) :
    (transactions (prog (.init m ps oa ob v)) s).prf
      = initEnd (modeReg Config.layout .cra (modeBits m)) (modeReg Config.layout .crb (modeBits m))
          (topDest m) ps oa ob v s.prf := by
  rw [prog_init, initProgram, csBits_layout]
  cases topDest m with
  | none => rfl
  | some d => cases d <;> rfl

/-- Transactions add their events after the history and do not read it. -/
theorem transactions_trace (ops : List MicroOp) (s : State) :
    (transactions ops s).trace = s.trace ++ (transactions ops { s with trace := [] }).trace := by
  induction ops generalizing s with
  | nil => exact (List.append_nil _).symm
  | cons m ops ih =>
    have hm (s : State) : (microStep m s).trace = s.trace ++ (microStep m { s with trace := [] }).trace := by
      cases m <;> rfl
    have hsame : { microStep m { s with trace := [] } with trace := [] }
        = { microStep m s with trace := [] } := by
      cases m <;> rfl
    rw [transactions, transactions, ih, ih (microStep m { s with trace := [] }), hm, hsame,
      List.append_assoc]

/-- The events of R76, when nothing comes between the halves of a merge. -/
theorem transactions_init_trace (m : InitMode) (ps : Prescaler) (oa ob : OutMode) (v : Word16)
    (s : State) :
    (transactions (prog (.init m ps oa ob v)) s).trace
      = s.trace ++ initEvents (modeReg Config.layout .cra (modeBits m))
          (modeReg Config.layout .crb (modeBits m)) (topDest m) ps oa ob v
          (modeReg Config.layout .cra (modeBits m)) (modeReg Config.layout .crb (modeBits m)) := by
  rw [prog_init, initProgram, csBits_layout]
  cases topDest m with
  | none => exact transactions_trace _ _
  | some d => cases d <;> exact transactions_trace _ _

@[simp] theorem afterCommand_init_prf (m : InitMode) (ps : Prescaler) (oa ob : OutMode) (v : Word16)
    (s : State) :
    (afterCommand (.init m ps oa ob v) s).prf
      = initEnd (modeReg Config.layout .cra (modeBits m)) (modeReg Config.layout .crb (modeBits m))
          (topDest m) ps oa ob v s.prf :=
  transactions_init_prf ..

@[simp] theorem afterCommand_init_trace (m : InitMode) (ps : Prescaler) (oa ob : OutMode) (v : Word16)
    (s : State) :
    (afterCommand (.init m ps oa ob v) s).trace
      = s.trace ++ initEvents (modeReg Config.layout .cra (modeBits m))
          (modeReg Config.layout .crb (modeBits m)) (topDest m) ps oa ob v
          (modeReg Config.layout .cra (modeBits m)) (modeReg Config.layout .crb (modeBits m)) :=
  transactions_init_trace ..

theorem extractLsb'_eq_zero {x : Byte} {k n : Nat} (h : ∀ j < n, x.getLsbD (k + j) = false) :
    x.extractLsb' k n = 0 := by
  ext j hj
  rw [BitVec.getElem_extractLsb', h j hj, BitVec.ofNat_eq_ofNat, BitVec.getElem_zero]

/-- Settles O25: the end values of R75 read field by field (O7 for the default layout). -/
theorem initEndStateFields : Obligations.InitEndStateFields := by
  intro m ps oa ob v s idle
  refine ⟨_, runCommand_alone _ idle, ?_⟩
  have hcra : (afterCommand (.init m ps oa ob v) s).prf.cra
      = modeReg Config.layout .cra (modeBits m) ||| outBits Config.layout oa ob := by
    rw [afterCommand_init_prf]; rfl
  have hcrb : (afterCommand (.init m ps oa ob v) s).prf.crb
      = modeReg Config.layout .crb (modeBits m) ||| csBits Config.layout ps := by
    rw [afterCommand_init_prf, csBits_layout]; rfl
  obtain ⟨low, mid, high, coma, comb, cs, unnamed⟩ :=
    fieldsReadBackInAnyLayout Config.layout defaultLayoutMeetsConstraints (modeBits m) oa ob ps
      (afterCommand (.init m ps oa ob v) s).prf.ctl hcra hcrb
  refine ⟨coma, comb, ?_, mid, low, ?_, high, unnamed .crb 3 (by decide), cs⟩
  · exact extractLsb'_eq_zero fun j hj => unnamed .cra (2 + j) (by interval_cases j <;> decide)
  · exact extractLsb'_eq_zero fun j hj => unnamed .crb (5 + j) (by interval_cases j <;> decide)

/-- An initialisation after itself changes nothing (R77 (a)). -/
theorem initEnd_idempotent (a b : Byte) (dest : Option TopDest) (ps : Prescaler) (oa ob : OutMode)
    (v : Word16) (p : Prf) :
    initEnd a b dest ps oa ob v (initEnd a b dest ps oa ob v p) = initEnd a b dest ps oa ob v p := by
  cases dest with
  | none => rfl
  | some d => cases d <;> rfl

/-- Settles O28: what the second run leaves, read off the end state of R75. -/
theorem reinitialisationOverwrites : Obligations.ReinitialisationOverwrites := by
  refine ⟨?_, ?_, fun i j s idle => ⟨_, _, runCommand_alone i idle, runCommand_alone j rfl⟩⟩
  · rintro m ps oa ob v s i rfl idle
    refine ⟨_, _, runCommand_alone _ idle, runCommand_alone _ rfl, ?_⟩
    simp only [afterCommand_init_prf, initEnd_idempotent]
  · rintro m ps oa ob v m' ps' oa' ob' v' s i j rfl rfl idle
    refine ⟨_, _, _, runCommand_alone _ idle, runCommand_alone _ rfl, runCommand_alone _ idle, ?_⟩
    simp only [afterCommand_init_prf]
    exact ⟨rfl, rfl, fun h => if_neg h, fun h => if_neg h, rfl⟩

theorem topDest_eq_none {m : InitMode}
    (h : m ∈ [InitMode.fast .bit8, .fast .bit9, .fast .bit10, .pc .bit8, .pc .bit9, .pc .bit10]) :
    topDest m = none := by
  revert m; decide

/-- Settles O29: without a `DEST` neither the micro-program nor the end state nor the events mention
the top value. -/
theorem fixedResolutionIgnoresTop : Obligations.FixedResolutionIgnoresTop := by
  intro m hm ps oa ob v v'
  have hdest := topDest_eq_none hm
  have hlen (u : Word16) : (prog (.init m ps oa ob u)).length + 2 = 9 := by
    rw [prog_init, initProgram_length, if_pos hdest]
  refine ⟨?_, fun s idle => ⟨afterCommand (.init m ps oa ob v) s, afterCommand (.init m ps oa ob v') s,
    hlen v ▸ runCommand_alone _ idle, hlen v' ▸ runCommand_alone _ idle, rfl, rfl, ?_⟩⟩
  · simp only [prog_init, initProgram, hdest, topProgram]
  · simp only [afterCommand_init_prf, afterCommand_init_trace, hdest]
    exact ⟨rfl, rfl, rfl, rfl⟩

/-- The sub-modes with the codes 0 to 4 have the same rows in both tables of R66. -/
theorem shared_modes {f : FastSub} {c : PcSub}
    (h : (f, c) ∈ [(FastSub.bit8, PcSub.bit8), (.bit9, .bit9), (.bit10, .bit10),
      (.topCmpa, .topCmpa), (.topTopr, .topTopr)]) :
    modeBits (.fast f) = modeBits (.pc c) ∧ topDest (.fast f) = topDest (.pc c) := by
  simp only [List.mem_cons, Prod.mk.injEq, List.not_mem_nil, or_false] at h
  rcases h with ⟨rfl, rfl⟩ | ⟨rfl, rfl⟩ | ⟨rfl, rfl⟩ | ⟨rfl, rfl⟩ | ⟨rfl, rfl⟩ <;> exact ⟨rfl, rfl⟩

/-- The family enters the micro-program through the tables only. -/
theorem prog_init_congr {m m' : InitMode} (hbits : modeBits m = modeBits m')
    (hdest : topDest m = topDest m') (ps : Prescaler) (oa ob : OutMode) (v : Word16) :
    prog (.init m ps oa ob v) = prog (.init m' ps oa ob v) := by
  simp only [prog_init, initProgram, hbits, hdest]

/-- Settles O30: equal rows give equal programs, events and registers; the family is the value of `cfg`.
By R56 an INIT word with sub-mode code 5 or 6 is invalid under `INIT_FAST` only. -/
theorem familyLeavesNoMark : Obligations.FamilyLeavesNoMark := by
  refine ⟨fun f c h ps oa ob v => ?_, fun w hrsv hsm => ⟨fun hop => ?_, fun hop => ?_⟩⟩
  · obtain ⟨hbits, hdest⟩ := shared_modes h
    have hfast : Instr.initFast f ps oa ob v = .init (.fast f) ps oa ob v := rfl
    have hpc : Instr.initPc c ps oa ob v = .init (.pc c) ps oa ob v := rfl
    rw [hfast, hpc]
    refine ⟨prog_init_congr hbits hdest .., fun s idle =>
      ⟨_, _, runCommand_alone _ idle, runCommand_alone _ idle, ?_, ?_, ?_, ?_⟩⟩
    · simp only [afterCommand_init_prf, hbits, hdest]
    · simp only [afterCommand_init_trace, hbits, hdest]
    · rw [afterCommand_cfg, ← hfast, family_initFast]; rfl
    · rw [afterCommand_cfg, ← hpc, family_initPc]; rfl
  · have hnone : FastSub.ofCode? (w.extractLsb' 20 3) = none :=
      (FastSub.ofCode?_eq_none_iff _).mpr (hsm.imp_right .inl)
    simp [decode, commandOf, fieldsOf, hrsv, hop, hnone]
  · cases hd : decode w with
    | command i => exact ⟨i, rfl⟩
    | invalid why =>
      have hreserved := (reservedExactly w).mp ⟨why, hd⟩
      rcases hsm with hsm | hsm <;> simp [hrsv, hop, hsm] at hreserved

/-! ### An initialisation under interference -/

/-- The micro-operations a state has still to issue. -/
def remaining (s : State) : List MicroOp := if s.busy then (prog s.cmd).drop s.upc else []

theorem remaining_of_busy {s : State} (busy : s.busy = true) :
    remaining s = (prog s.cmd).drop s.upc := if_pos busy

theorem remaining_of_idle {s : State} (idle : s.busy = false) : remaining s = [] := by
  simp [remaining, idle]

theorem remaining_microStep {s : State} {m : MicroOp} (busy : s.busy = true)
    (hm : (prog s.cmd)[s.upc]? = some m) : remaining s = m :: remaining (microStep m s) := by
  obtain ⟨hlt, rfl⟩ := List.getElem?_eq_some_iff.mp hm
  rw [remaining_of_busy busy, remaining_of_busy (by simpa [microStep] using busy),
    List.drop_eq_getElem_cons hlt]
  simp [microStep]

theorem remaining_of_unmoved {s t : State} (unmoved : SequencerUnmoved s t) :
    remaining t = remaining s := by
  simp only [remaining, unmoved.busy, unmoved.cmd, unmoved.upc]

/-- `ev` are events that the micro-operations `ops` can issue, beginning with `tmp`, whatever their reads
return (R73). -/
def Issues : List MicroOp → Byte → List Event → Prop
  | [], _, ev => ev = []
  | .w v :: ops, tmp, ev => ∃ rest, ev = .write .tmc v :: rest ∧ Issues ops tmp rest
  | .r c :: ops, _, ev => ∃ a rest, ev = .read .tmc (ctlVal c a) :: rest ∧ Issues ops a rest
  | .wor c k :: ops, tmp, ev =>
    ∃ rest, ev = .write .tmc (ctlVal c (tmp ||| k)) :: rest ∧ Issues ops tmp rest

/-- The events an initialisation can issue are those of R76. -/
theorem issues_init {m : InitMode} {ps : Prescaler} {oa ob : OutMode} {v : Word16} {tmp : Byte}
    {ev : List Event} (h : Issues (prog (.init m ps oa ob v)) tmp ev) :
    ∃ a b, ev = initEvents (modeReg Config.layout .cra (modeBits m))
      (modeReg Config.layout .crb (modeBits m)) (topDest m) ps oa ob v a b := by
  rw [prog_init, initProgram, csBits_layout] at h
  cases hd : topDest m with
  | none =>
    obtain ⟨_, rfl, _, rfl, _, rfl, a, _, rfl, _, rfl, b, _, rfl, _, rfl, rfl⟩ := hd ▸ h
    exact ⟨a, b, rfl⟩
  | some d =>
    obtain ⟨_, rfl, _, rfl, _, rfl, _, rfl, a, _, rfl, _, rfl, b, _, rfl, _, rfl, rfl⟩ := hd ▸ h
    cases d <;> exact ⟨a, b, rfl⟩

/-- The account of a run of all agents from `s` to `t`, by what `s` had still to issue: what the TMC
recorded, and which registers it left if ENV wrote none. -/
def Accounted (s t : State) : Prop :=
  ∃ ev, t.trace = s.trace ++ ev ∧ Issues (remaining s) s.tmp (tmcEvents ev)
    ∧ (envWrites ev = [] → t.prf = (transactions (remaining s) s).prf)

theorem Accounted.of_idle {t : State} (idle : t.busy = false) : Accounted t t :=
  ⟨[], by simp, by rw [remaining_of_idle idle]; rfl, fun _ => by rw [remaining_of_idle idle]; rfl⟩

/-- A step without a transaction of the TMC goes in front of an account. -/
theorem Accounted.after_quiet {s u t : State} {ev : List Event} (acc : Accounted u t)
    (htrace : u.trace = s.trace ++ ev) (hquiet : tmcEvents ev = [])
    (hremaining : remaining u = remaining s) (htmp : u.tmp = s.tmp)
    (hprf : envWrites ev = [] → u.prf = s.prf) : Accounted s t := by
  obtain ⟨ev', htrace', hissues, hundisturbed⟩ := acc
  rw [hremaining] at hissues hundisturbed
  refine ⟨ev ++ ev', by rw [htrace', htrace, List.append_assoc], ?_, fun hno => ?_⟩
  · rwa [tmcEvents_append, hquiet, List.nil_append, ← htmp]
  · obtain ⟨hev, hev'⟩ : envWrites ev = [] ∧ envWrites ev' = [] :=
      List.append_eq_nil_iff.mp (by rw [← hno, envWrites, envWrites, envWrites, List.filter_append])
    rw [hundisturbed hev', transactions_prf_congr _ (hprf hev) htmp]

/-- A transaction of the TMC goes in front of an account. -/
theorem Accounted.after_microStep {s t : State} {m : MicroOp} (busy : s.busy = true)
    (hm : (prog s.cmd)[s.upc]? = some m) (acc : Accounted (microStep m s) t) : Accounted s t := by
  obtain ⟨ev, htrace, hissues, hundisturbed⟩ := acc
  unfold Accounted
  rw [remaining_microStep busy hm]
  cases m with
  | w v =>
    exact ⟨.write .tmc v :: ev, by simpa [microStep, microOp] using htrace, ⟨_, rfl, hissues⟩, hundisturbed⟩
  | r c =>
    exact ⟨.read .tmc (s.prf.read c.id) :: ev, by simpa [microStep, microOp] using htrace,
      ⟨_, _, by rw [Prf.read_id]; rfl, hissues⟩, hundisturbed⟩
  | wor c k =>
    exact ⟨.write .tmc (ctlVal c (s.tmp ||| k)) :: ev, by simpa [microStep, microOp] using htrace,
      ⟨_, rfl, hissues⟩, hundisturbed⟩

/-- Whichever agent moves, its step goes in front of an account. -/
theorem Accounted.after_step {s u t : State} (busy : s.busy = true) (h : step s = .next u)
    (acc : Accounted u t) : Accounted s t := by
  have quiet {ev : List Event} := acc.after_quiet (s := s) (ev := ev)
  cases step_effect h with
  | tmcActs rest next i fetched _ effect =>
    obtain rfl := eq_cmd_of_fetch busy fetched
    have hsame {s' : State} (acc' : Accounted { s with sched := rest } s') : Accounted s s' :=
      acc'.after_quiet (ev := []) (List.append_nil _).symm rfl rfl rfl fun _ => rfl
    cases effect with
    | accepts idle => cases busy.symm.trans idle
    | transacts _ m hm =>
      exact hsame (Accounted.after_microStep (s := { s with sched := rest }) busy hm acc)
    | completes _ ended =>
      have hnone : remaining s = [] := by
        rw [remaining_of_busy busy]; exact List.drop_eq_nil_of_le ended.ge
      exact quiet (ev := []) (List.append_nil _).symm rfl (hnone ▸ remaining_of_idle rfl) rfl fun _ => rfl
  | tmcWaits | hostOffers | hostWithdraws =>
    exact quiet (ev := []) (List.append_nil _).symm rfl rfl rfl fun _ => rfl
  | envReads => exact quiet (ev := [_]) rfl rfl rfl rfl fun _ => rfl
  | envWrites => exact quiet (ev := [_]) rfl rfl rfl rfl nofun

/-- What holds at the end of a run to the completion and is carried back over every step of a busy TMC
holds at its start. -/
theorem runUntilIdle_induction {P : State → Prop} {n : Nat} {s t : State} (h : runUntilIdle n s = .next t)
    (base : P t) (back : ∀ s u, s.busy = true → step s = .next u → P u → P s) : P s := by
  induction n generalizing s with
  | zero => cases h; exact base
  | succ n ih =>
    rw [runUntilIdle] at h
    split at h
    case isTrue busy =>
      cases hstep : step s with
      | next u => rw [hstep] at h; exact back s u busy hstep (ih h)
      | fault | refused => rw [hstep] at h; cases h
    case isFalse => cases h; exact base

theorem runUntilIdle_accounted {n : Nat} {s t : State} (h : runUntilIdle n s = .next t)
    (idle : t.busy = false) : Accounted s t :=
  runUntilIdle_induction (P := (Accounted · t)) h (.of_idle idle) fun _ _ => Accounted.after_step

theorem remaining_of_accepted {i : Instr} {s : State} (busy : s.busy = true) (cmd : s.cmd = i)
    (first : s.upc = 0) : remaining s = prog i := by
  rw [remaining_of_busy busy, cmd, first, List.drop_zero]

/-- Settles O24: without an ENV write the registers are those of the transactions alone. -/
theorem initEndStateUndisturbed : Obligations.InitEndStateUndisturbed := by
  intro m ps oa ob v n s t ev busy cmd first h idle htrace hno
  obtain ⟨ev', htrace', -, hundisturbed⟩ := runUntilIdle_accounted h idle
  obtain rfl : ev = ev' := List.append_cancel_left (htrace.symm.trans htrace')
  rw [hundisturbed hno, remaining_of_accepted busy cmd first, transactions_init_prf]

/-- Settles O26: the TMC's events are issued by the micro-program, whatever its reads return. -/
theorem initTraceUnderInterference : Obligations.InitTraceUnderInterference := by
  intro m ps oa ob v n s t busy cmd first h idle
  obtain ⟨ev, htrace, hissues, -⟩ := runUntilIdle_accounted h idle
  rw [remaining_of_accepted busy cmd first] at hissues
  obtain ⟨a, b, hev⟩ := issues_init hissues
  exact ⟨a, b, by rw [htrace, tmcEvents_append, hev]⟩

end Sys2Proof.Machine
end

section
/-! PROOFS of the family 41_init_fast.md: the variants of `INIT_FAST`. The template of R85 to R89 holds of
every initialisation, with the constants its row of R66 and its codes give (`initVariant_init`); a variant
is an instance of it, at which the constants evaluate to the numbers of the rule. -/

namespace Sys2Proof.Machine

/-- The `match` of an initialisation row holds the two codes. -/
theorem wordOf_codes (op sm : BitVec 3) :
    wordOf ⟨0, op, 0, sm, 0, 0, 0⟩ = op.setWidth 32 <<< 26 ||| sm.setWidth 32 <<< 20 := by
  simp [wordOf]

/-- The words that match the row of an initialisation are those that decode to it (R63). -/
theorem matches_init_iff (m : InitMode) (w : CmdWord) :
    w &&& 0xFC700000#32 = wordOf ⟨0, m.opCode, 0, m.subCode, 0, 0, 0⟩
      ↔ ∃ ps oa ob v, decode w = .command (.init m ps oa ob v) := by
  simp only [matches_initMask_iff, decode_eq_command_iff, encode_init]

/-- The word of an initialisation is the `match` of its row with the operands in their positions (R59). -/
theorem encode_init_eq_match_or (m : InitMode) (ps : Prescaler) (oa ob : OutMode) (v : Word16) :
    encode (.init m ps oa ob v)
      = wordOf ⟨0, m.opCode, 0, m.subCode, 0, 0, 0⟩ ||| ps.code.setWidth 32 <<< 23
        ||| oa.code.setWidth 32 <<< 18 ||| ob.code.setWidth 32 <<< 16 ||| v.setWidth 32 := by
  rw [encode_init, wordOf_initFields, wordOf_codes, BitVec.or_assoc (m.opCode.setWidth 32 <<< 26),
    BitVec.or_comm (ps.code.setWidth 32 <<< 23), ← BitVec.or_assoc]

/-- An initialisation run alone takes two steps more than the 7 or 8 of its transactions. -/
theorem runCommand_init_alone (m : InitMode) (ps : Prescaler) (oa ob : OutMode) (v : Word16) {s : State}
    (idle : s.busy = false) :
    runCommand ((if topDest m = none then 7 else 8) + 2) (.init m ps oa ob v) s
      = .next (afterCommand (.init m ps oa ob v) s) := by
  rw [← initProgram_length m ps oa ob v, ← prog_init]
  exact runCommand_alone _ idle

@[simp] theorem afterCommand_doneCount (i : Instr) (s : State) :
    (afterCommand i s).doneCount = s.doneCount + 1 := by
  simp [afterCommand]

/-- The template of R85 to R89 and R91 to R97, with the codes and the row of R66 of the sub-mode. -/
theorem initVariant_init {m : InitMode} {fam : Cfg}
    (hfam : ∀ ps oa ob v, family (.init m ps oa ob v) = some fam) :
    InitVariant (.init m) (wordOf ⟨0, m.opCode, 0, m.subCode, 0, 0, 0⟩)
      (modeReg Config.layout .cra (modeBits m)) (modeReg Config.layout .crb (modeBits m))
      (topDest m) fam := by
  refine ⟨matches_init_iff m, encode_init_eq_match_or m, fun ps oa ob v s idle =>
    ⟨_, runCommand_init_alone m ps oa ob v idle, afterCommand_init_trace .., afterCommand_init_prf ..,
      afterCommand_busy .., afterCommand_doneCount .., ?_⟩⟩
  rw [afterCommand_cfg, hfam]; rfl

/-- The template of R85 to R89. -/
theorem initVariant_initFast (sm : FastSub) :
    InitVariant (.initFast sm) (wordOf ⟨0, 0, 0, sm.code, 0, 0, 0⟩)
      (modeReg Config.layout .cra (fastModeBits sm)) (modeReg Config.layout .crb (fastModeBits sm))
      (topDest (.fast sm)) .fast :=
  initVariant_init (m := .fast sm) (family_initFast sm)

/-- Settles O21: the template at the five sub-modes, whose constants evaluate to those of R85 to R89. -/
theorem initFastVariants : Obligations.InitFastVariants :=
  ⟨initVariant_initFast .bit8, initVariant_initFast .bit9, initVariant_initFast .bit10,
    initVariant_initFast .topCmpa, initVariant_initFast .topTopr⟩

end Sys2Proof.Machine
end

section
/-! PROOFS of the family 42_init_phase_correct.md: the variants of `INIT_PC`. They are the instances of the
template of every initialisation (`initVariant_init`) at the seven rows of the Phase-Correct table. The two
frequency-correct rows leave both mode bits of CRA clear, and no row of the Fast-PWM table does. -/

namespace Sys2Proof.Machine

/-- The template of R91 to R97. -/
theorem initVariant_initPc (sm : PcSub) :
    InitVariant (.initPc sm) (wordOf ⟨0, 1, 0, sm.code, 0, 0, 0⟩)
      (modeReg Config.layout .cra (pcModeBits sm)) (modeReg Config.layout .crb (pcModeBits sm))
      (topDest (.pc sm)) .pc :=
  initVariant_init (m := .pc sm) (family_initPc sm)

/-- Every Fast-PWM row of R66 sets one of the two mode bits that lie in CRA. -/
theorem fastModeBits_low_or_mid (sm : FastSub) :
    (fastModeBits sm).low = true ∨ (fastModeBits sm).mid = true := by
  cases sm <;> decide

/-- A row of R66 with both mode bits of CRA clear is of no Fast-PWM sub-mode (R96). -/
theorem modeBits_fast_ne_of_clear {m : ModeBits} (hlow : m.low = false) (hmid : m.mid = false)
    (sm : FastSub) : modeBits (.fast sm) ≠ m := by
  rintro rfl
  rcases fastModeBits_low_or_mid sm with h | h
  · exact Bool.false_ne_true (hlow.symm.trans h)
  · exact Bool.false_ne_true (hmid.symm.trans h)

/-- Settles O22: the template at the seven sub-modes, whose constants evaluate to those of R91 to R97; both
frequency-correct rows have the mode bits of CRA clear. -/
theorem initPcVariants : Obligations.InitPcVariants :=
  ⟨initVariant_initPc .bit8, initVariant_initPc .bit9, initVariant_initPc .bit10,
    initVariant_initPc .topCmpa, initVariant_initPc .topTopr,
    initVariant_initPc .fcTopCmpa, initVariant_initPc .fcTopTopr,
    fun sm => ⟨modeBits_fast_ne_of_clear rfl rfl sm, modeBits_fast_ne_of_clear rfl rfl sm⟩⟩

end Sys2Proof.Machine
end

section
/-! PROOFS of the family 43_register_loads.md: the register loads. The three differ only in the operation
code and the destination (`LoadReg`), so what a load does is proved once for any destination. A load run
alone writes its register and nothing else (`afterCommand_load_prf`), and two loads after each other are
two writes to the register file: R102 is then the algebra of `Prf.write`. -/

namespace Sys2Proof.Machine

/-! ### The loads as one family -/

/-- The destinations of the register loads (R99, R100, R101). -/
inductive LoadReg where
  | cmpa | cmpb | topr

/-- The load with a given destination. -/
def LoadReg.instr : LoadReg → Word16 → Instr
  | .cmpa => .setCmpa
  | .cmpb => .setCmpb
  | .topr => .setTop

/-- The write a load issues. -/
def LoadReg.val : LoadReg → Word16 → RegVal
  | .cmpa => .cmpa
  | .cmpb => .cmpb
  | .topr => .topr

/-- The register a load writes. -/
def LoadReg.reg : LoadReg → RegId
  | .cmpa => .cmpa
  | .cmpb => .cmpb
  | .topr => .topr

/-- The operation code of a load (R49). -/
def LoadReg.opCode : LoadReg → BitVec 3
  | .cmpa => 2
  | .cmpb => 3
  | .topr => 4

@[simp] theorem LoadReg.val_reg (d : LoadReg) (v : Word16) : (d.val v).reg = d.reg := by
  cases d <;> rfl

@[simp] theorem Instr.fields_load (d : LoadReg) (v : Word16) :
    (d.instr v).fields = loadFields d.opCode v := by
  cases d <;> rfl

@[simp] theorem prog_load (d : LoadReg) (v : Word16) : prog (d.instr v) = [.w (d.val v)] := by
  cases d <;> rfl

@[simp] theorem family_load (d : LoadReg) (v : Word16) : family (d.instr v) = none := by
  cases d <;> rfl

@[simp] theorem writable_load (d : LoadReg) (v : Word16) : writable (d.instr v) = [d.reg] := by
  cases d <;> rfl

theorem LoadReg.instr_eq_of_reg_eq {d d' : LoadReg} (h : d.reg = d'.reg) : d.instr = d'.instr := by
  cases d <;> cases d' <;> simp [LoadReg.reg] at h ⊢

/-- The instruction fixes the register: its row of R25 names that one only. -/
theorem LoadReg.reg_eq_of_instr_eq {d d' : LoadReg} (h : d.instr = d'.instr) : d.reg = d'.reg := by
  have hrow : [d.reg] = [d'.reg] := by rw [← writable_load d 0, h, writable_load]
  exact List.singleton_inj.mp hrow

theorem exists_loadReg_of_mem {mk : Word16 → Instr} (h : mk ∈ [Instr.setCmpa, .setCmpb, .setTop]) :
    ∃ d : LoadReg, mk = d.instr := by
  simp only [List.mem_cons, List.not_mem_nil, or_false] at h
  rcases h with rfl | rfl | rfl
  · exact ⟨.cmpa, rfl⟩
  · exact ⟨.cmpb, rfl⟩
  · exact ⟨.topr, rfl⟩

/-! ### The words of a load -/

/-- The words that match the row of a load are those that decode to it (R63). -/
theorem matches_load_iff (d : LoadReg) (w : CmdWord) :
    w &&& 0xFFFF0000#32 = wordOf ⟨0, d.opCode, 0, 0, 0, 0, 0⟩ ↔ ∃ v, decode w = .command (d.instr v) := by
  simp only [matches_loadMask_iff, decode_eq_command_iff, encode, Instr.fields_load]

/-- The word of a load is the `match` of its row with the operand in its position (R59). -/
theorem encode_load_eq_match_or (d : LoadReg) (v : Word16) :
    encode (d.instr v) = wordOf ⟨0, d.opCode, 0, 0, 0, 0, 0⟩ ||| v.setWidth 32 := by
  rw [encode, Instr.fields_load, wordOf_loadFields]
  simp [wordOf]

/-! ### What a load does -/

/-- The one transaction of a load. -/
theorem exec_load_of_first (d : LoadReg) (v : Word16) {s : State} (busy : s.busy = true)
    (first : s.upc = 0) :
    exec (d.instr v) s = .next { s with
      prf := s.prf.write (d.val v), trace := s.trace ++ [.write .tmc (d.val v)], upc := 1 } := by
  have hm : (prog (d.instr v))[s.upc]? = some (.w (d.val v)) := by simp [first]
  rw [exec_of_micro busy hm]
  simp [microStep, microOp, regWrite, advance, first]

/-- A load run alone takes three steps. -/
theorem runCommand_load_alone (d : LoadReg) (v : Word16) {s : State} (idle : s.busy = false) :
    runCommand 3 (d.instr v) s = .next (afterCommand (d.instr v) s) := by
  have hrun := runCommand_alone (d.instr v) idle
  rwa [prog_load] at hrun

@[simp] theorem afterCommand_load_prf (d : LoadReg) (v : Word16) (s : State) :
    (afterCommand (d.instr v) s).prf = s.prf.write (d.val v) := by
  rw [afterCommand, prog_load]; rfl

@[simp] theorem afterCommand_load_trace (d : LoadReg) (v : Word16) (s : State) :
    (afterCommand (d.instr v) s).trace = s.trace ++ [.write .tmc (d.val v)] := by
  rw [afterCommand, prog_load]; rfl

/-- The template of R99 to R101, with the code and the register of the destination. -/
theorem loadVariant_load (d : LoadReg) :
    LoadVariant d.instr (wordOf ⟨0, d.opCode, 0, 0, 0, 0, 0⟩) d.val := by
  refine ⟨matches_load_iff d, encode_load_eq_match_or d, fun v s => exec_load_of_first d v,
    fun v s idle => ⟨_, runCommand_load_alone d v idle, afterCommand_load_trace .., ?own, ?others,
      afterCommand_busy .., afterCommand_doneCount .., ?cfg⟩⟩
  case own => rw [afterCommand_load_prf, Prf.read_write_same]
  case others =>
    intro r other
    rw [afterCommand_load_prf, Prf.read_write_other _ _ other]
  case cfg => rw [afterCommand_cfg, family_load]; rfl

/-! ### Only SET_CMPB writes CMPB -/

/-- R25 marks CMPB written in one row only. -/
theorem eq_setCmpb_of_cmpb_mem_writable {i : Instr} (h : .cmpb ∈ writable i) :
    ∃ v, i = .setCmpb v := by
  cases i with
  | setCmpb v => exact ⟨v, rfl⟩
  | _ => simp [writable] at h

/-- A step of a load that writes at all writes the operand to the load's register. -/
theorem eq_val_of_load_writes {d : LoadReg} {v : Word16} {u : RegVal} {s t : State}
    (h : exec (d.instr v) s = .next t) (htrace : t.trace = s.trace ++ [.write .tmc u]) : u = d.val v := by
  cases exec_effect h with
  | accepts | completes => simp at htrace
  | transacts busy m hm =>
    have hmem := List.mem_of_getElem? hm
    rw [prog_load, List.mem_singleton] at hmem
    subst hmem
    simpa [microStep, microOp, eq_comm] using htrace

theorem eq_setCmpb_of_writes_cmpb {i : Instr} {s t : State} {v : Word16} (h : exec i s = .next t)
    (htrace : t.trace = s.trace ++ [.write .tmc (.cmpb v)]) : i = .setCmpb v := by
  have hrow : .cmpb ∈ writable i := by
    rcases (accessMatrix i s t h).2 with ⟨hquiet, -⟩ | ⟨u, hu, hwrite, -⟩ | ⟨r, -, hread, -⟩
    · simp [htrace] at hquiet
    · obtain rfl : RegVal.cmpb v = u := by simpa [htrace] using hwrite
      exact hu
    · simp [htrace] at hread
  obtain ⟨v', rfl⟩ := eq_setCmpb_of_cmpb_mem_writable hrow
  have hval : RegVal.cmpb v = .cmpb v' := eq_val_of_load_writes (d := .cmpb) h htrace
  cases hval
  rfl

/-- Settles O31: the template at the three destinations, whose codes evaluate to the words of R63; CMPB is
in the write row of `SET_CMPB` only. -/
theorem registerLoadVariants : Obligations.RegisterLoadVariants :=
  ⟨loadVariant_load .cmpa, loadVariant_load .cmpb, loadVariant_load .topr,
    fun _ _ _ _ => eq_setCmpb_of_writes_cmpb⟩

/-! ### Loads and the register file -/

/-- No step of a load changes a register other than its own: the next register file is the old one with
that register replaced. -/
theorem exec_load_frame (d : LoadReg) {v : Word16} {s t : State} (h : exec (d.instr v) s = .next t) :
    t.prf = s.prf.write (t.prf.read d.reg) := by
  obtain ⟨hothers, -⟩ := accessMatrix _ s t h
  refine Prf.ext_read fun r => ?_
  rw [Prf.read_write, Prf.read_reg]
  split
  case isTrue own => rw [own]
  case isFalse other => exact hothers r (by simpa using other)

/-- Settles O32: two loads are two writes to the register file, which commute or replace each other. -/
theorem loadsIndependent : Obligations.LoadsIndependent := by
  refine ⟨fun s idle => ?sourceExample, fun v s t h => exec_load_frame .cmpa h,
    fun v s t h => exec_load_frame .cmpb h, fun v s t h => exec_load_frame .topr h, ?pairs⟩
  case sourceExample =>
    exact ⟨_, _, runCommand_load_alone .cmpa 0x2ABC idle, runCommand_load_alone .cmpb 0x0001 rfl, rfl, rfl⟩
  case pairs =>
    intro mk mk' hmk hmk' v v' s idle
    obtain ⟨d, rfl⟩ := exists_loadReg_of_mem hmk
    obtain ⟨d', rfl⟩ := exists_loadReg_of_mem hmk'
    refine ⟨_, _, _, _, runCommand_load_alone d v idle, runCommand_load_alone d' v' rfl,
      runCommand_load_alone d' v' idle, runCommand_load_alone d v rfl, fun differ => ?_, fun same => ?_⟩
    · have hreg : (d'.val v').reg ≠ (d.val v).reg := by
        rw [LoadReg.val_reg, LoadReg.val_reg]
        exact fun e => differ (LoadReg.instr_eq_of_reg_eq e.symm)
      simp only [afterCommand_load_prf, Prf.write_comm _ hreg]
    · have hreg : (d'.val v').reg = (d.val v).reg := by
        rw [LoadReg.val_reg, LoadReg.val_reg, LoadReg.reg_eq_of_instr_eq same]
      simp only [afterCommand_load_prf, Prf.write_write_same _ hreg]

end Sys2Proof.Machine
end

section
/-! PROOFS of the family 60_exceptions.md: the hardware has no exception, so every step is answered and
every command ends. A meaning can stop only past the end of its micro-program (`exec_outcomes`); inside it
a step is answered unless an idle TMC samples an invalid word (`step_outcomes`). A command alone issues
its micro-program one event a transaction (`length_trace_transactions`). Under any schedule each step of a
running command completes it or brings its end nearer (`busy_step_cases`), and its events are counted by
the account kept of them (`Issues.length_eq`). -/

namespace Sys2Proof.Machine

/-! ### The outcomes of a meaning and of a step -/

theorem exec_outcomes (i : Instr) (s : State) :
    (∃ t, exec i s = .next t)
      ∨ (exec i s = .fault .sequencerStuck ∧ s.busy = true ∧ (prog i).length < s.upc) := by
  rw [exec_eq_sequencer]
  rcases sequencer_cases i (prog i) (family i) s with
    ⟨-, accepts⟩ | ⟨-, m, -, transacts⟩ | ⟨-, -, completes⟩ | ⟨busy, past, stuck⟩
  · exact .inl ⟨_, accepts⟩
  · exact .inl ⟨_, transacts⟩
  · exact .inl ⟨_, completes⟩
  · exact .inr ⟨stuck, busy, past⟩

/-- Settles O18: of the sequencer's four branches only the last one answers no next state. -/
theorem meaningsAnswerNext : Obligations.MeaningsAnswerNext := exec_outcomes

theorem exec_answers {i : Instr} {s : State} (inside : s.busy = true → s.upc ≤ (prog i).length) :
    ∃ t, exec i s = .next t := by
  rcases exec_outcomes i s with answers | ⟨-, busy, past⟩
  · exact answers
  · exact absurd (inside busy) past.not_ge

theorem fetch_of_nothing {s : State} (idle : s.busy = false) (noOffer : s.cmdValid = false) :
    fetch s = .nothing := by
  simp [fetch, idle, noOffer]

theorem fetch_eq_invalid_iff {s : State} {why : Invalid} :
    fetch s = .invalid why
      ↔ s.busy = false ∧ s.cmdValid = true ∧ decode s.cmdWord = .invalid why := by
  refine ⟨fun fetched => ?_, fun ⟨idle, valid, word⟩ => fetch_of_invalid idle valid word⟩
  cases busy : s.busy with
  | true => cases (fetch_of_busy busy).symm.trans fetched
  | false =>
    cases valid : s.cmdValid with
    | false => cases (fetch_of_nothing busy valid).symm.trans fetched
    | true =>
      cases word : decode s.cmdWord with
      | command i => cases (fetch_of_command busy valid word).symm.trans fetched
      | invalid why' =>
        cases (fetch_of_invalid busy valid word).symm.trans fetched
        exact ⟨rfl, rfl, rfl⟩

/-- When the TMC moves and fetches nothing, only its turn is taken off the schedule. -/
theorem step_waits {s : State} {rest : List Turn} (next : TmcNext s rest)
    (fetched : fetch s = .nothing) : step s = .next { s with sched := rest } := by
  have hfetch : fetch { s with sched := rest } = .nothing := fetched
  rw [step_of_tmcNext next, tmcTurn, hfetch]

/-- Settles O11: an idle TMC without an offer fetches nothing. -/
theorem idleTmcWaits : Obligations.IdleTmcWaits := by
  intro s idle noOffer
  have waits {rest : List Turn} (next : TmcNext s rest) : step s = .next { s with sched := rest } :=
    step_waits next (fetch_of_nothing idle noOffer)
  refine ⟨by simp [cmdReady, idle], fun empty => ?_, fun rest turn => waits (.inr turn)⟩
  exact (waits (.inl ⟨empty, rfl⟩)).trans (by rw [← empty])

/-- When the TMC moves inside its micro-program, only the sample of an invalid word is refused. -/
theorem tmc_step_outcomes {s : State} {rest : List Turn} (next : TmcNext s rest)
    (inside : s.busy = true → s.upc ≤ (prog s.cmd).length) :
    (∃ t, step s = .next t)
      ∨ ∃ why, fetch s = .invalid why ∧ step s = .refused (.invalidCommand why) := by
  cases fetched : fetch s with
  | nothing => exact .inl ⟨_, step_waits next fetched⟩
  | command i =>
    rw [step_of_fetch next fetched]
    exact .inl (exec_answers fun busy => eq_cmd_of_fetch busy fetched ▸ inside busy)
  | invalid why => exact .inr ⟨why, rfl, step_refuses next fetched⟩

/-- The same whichever agent moves: the turns of the host and of ENV are always answered. -/
theorem step_outcomes {s : State} (inside : s.busy = true → s.upc ≤ (prog s.cmd).length) :
    (∃ t, step s = .next t)
      ∨ ∃ why, fetch s = .invalid why ∧ step s = .refused (.invalidCommand why) := by
  rcases step_cases s with
    ⟨hs, -⟩ | ⟨rest, ⟨hs, -⟩ | ⟨w, -, heq⟩ | ⟨-, heq⟩ | ⟨r, -, heq⟩ | ⟨v, -, heq⟩⟩
  · exact tmc_step_outcomes (.inl ⟨hs, rfl⟩) inside
  · exact tmc_step_outcomes (.inr hs) inside
  all_goals exact .inl ⟨_, heq⟩

/-- Settles O17: the invariant keeps the sequencer inside its micro-program. -/
theorem stepOutcomes : Obligations.StepOutcomes := by
  intro p s inv
  refine (step_outcomes inv.inProgram).imp_right fun ⟨why, fetched, refused⟩ => ?_
  exact ⟨why, refused, fetch_eq_invalid_iff.mp fetched⟩

/-! ### A command alone -/

theorem prog_length_cases (i : Instr) :
    (prog i).length = 1 ∨ (prog i).length = 7 ∨ (prog i).length = 8 := by
  rcases Instr.init_or_load i with ⟨m, ps, oa, ob, v, rfl⟩ | ⟨v, rfl⟩ | ⟨v, rfl⟩ | ⟨v, rfl⟩
  · rw [prog_init, initProgram_length]
    split
    case isTrue => exact .inr (.inl rfl)
    case isFalse => exact .inr (.inr rfl)
  all_goals exact .inl rfl

theorem length_trace_transactions (ops : List MicroOp) (s : State) :
    (transactions ops s).trace.length = s.trace.length + ops.length := by
  induction ops generalizing s with
  | nil => rfl
  | cons m ops ih =>
    obtain ⟨e, htrace, -⟩ := microOp_trace m s
    rw [transactions, ih, microStep, advance_trace, htrace]
    simp only [List.length_append, List.length_cons, List.length_nil]
    omega

/-- Transactions add one event each. -/
theorem exists_trace_transactions (ops : List MicroOp) (s : State) :
    ∃ ev, (transactions ops s).trace = s.trace ++ ev ∧ ev.length = ops.length :=
  ⟨_, transactions_trace ops s, by rw [length_trace_transactions]; exact Nat.zero_add _⟩

/-- The acceptance and the first `k` transactions of a command run alone. -/
theorem runCommand_take (i : Instr) {s : State} (idle : s.busy = false) {k : Nat}
    (hk : k ≤ (prog i).length) :
    runCommand (k + 1) i s = .next (transactions ((prog i).take k) (accept i s)) := by
  have hrun := runCommand_transactions (i := i) (s := accept i s) (ops := (prog i).take k) rfl
    (List.take_append_drop k (prog i)).symm
  rw [List.length_take_of_le hk] at hrun
  rw [runCommand_succ (exec_of_idle idle), hrun]

/-- Settles O19: `k` transactions are the first `k` micro-operations, and the whole run is all of them
and a completion. -/
theorem everyCommandCompletes : Obligations.EveryCommandCompletes := by
  intro i s idle
  refine ⟨prog_length_cases i, fun k hk => ?running, ?completed⟩
  case running =>
    obtain ⟨ev, htrace, hlen⟩ := exists_trace_transactions ((prog i).take k) (accept i s)
    exact ⟨_, ev, runCommand_take i idle hk, by simp, htrace,
      hlen.trans (List.length_take_of_le hk)⟩
  case completed =>
    obtain ⟨ev, htrace, hlen⟩ := exists_trace_transactions (prog i) (accept i s)
    exact ⟨_, ev, runCommand_alone i idle, afterCommand_busy i s, afterCommand_doneCount i s,
      htrace, hlen⟩

/-! ### A running command under any schedule -/

/-- A step while a command runs: it completes the command, or the command runs on and the turns scheduled
and the transactions to issue are together fewer. A step that is not the TMC's takes a scheduled turn. -/
theorem busy_step_cases {s t : State} (busy : s.busy = true) (inside : s.upc ≤ (prog s.cmd).length)
    (h : step s = .next t) :
    (t.busy = false ∧ t.upc = (prog s.cmd).length)
      ∨ (t.busy = true ∧ t.upc ≤ (prog s.cmd).length
        ∧ t.sched.length + ((prog s.cmd).length - t.upc)
          < s.sched.length + ((prog s.cmd).length - s.upc)) := by
  have effect := step_effect h
  have hsched : t.sched.length = s.sched.length - 1 := by rw [effect.sched, List.length_tail]
  cases effect with
  | tmcActs rest _ i fetched _ act =>
    obtain rfl := eq_cmd_of_fetch busy fetched
    cases act with
    | accepts idle => cases busy.symm.trans idle
    | completes _ ended => exact .inl ⟨rfl, ended⟩
    | transacts _ m hm =>
      have hlt : s.upc < (prog s.cmd).length := (List.getElem?_eq_some_iff.mp hm).1
      refine .inr ⟨by simpa [microStep] using busy, ?_, ?_⟩ <;>
        simp only [microStep, advance_upc, microOp_upc] at hsched ⊢ <;> omega
  | tmcWaits _ _ fetched => cases (fetch_of_busy busy).symm.trans fetched
  | hostOffers _ _ next | hostWithdraws _ next | envReads _ _ next | envWrites _ _ next =>
    exact .inr ⟨busy, inside, Nat.add_lt_add_right (by simp [next]) _⟩

theorem runUntilIdle_of_idle {n : Nat} {s : State} (idle : s.busy = false) :
    runUntilIdle n s = .next s := by
  cases n <;> simp [runUntilIdle, idle]

theorem runUntilIdle_succ {n : Nat} {s t : State} (busy : s.busy = true) (h : step s = .next t) :
    runUntilIdle (n + 1) s = runUntilIdle n t := by
  simp [runUntilIdle, busy, h]

theorem busy_step_answers {s : State} (busy : s.busy = true) (inside : s.upc ≤ (prog s.cmd).length) :
    ∃ t, step s = .next t := by
  rcases step_outcomes fun _ => inside with answers | ⟨why, fetched, -⟩
  · exact answers
  · cases (fetch_of_busy busy).symm.trans fetched

/-- A running command ends within more steps than turns scheduled and transactions to issue. -/
theorem runUntilIdle_ends {n : Nat} {s : State} (busy : s.busy = true)
    (inside : s.upc ≤ (prog s.cmd).length)
    (enough : s.sched.length + ((prog s.cmd).length - s.upc) < n) :
    ∃ t, runUntilIdle n s = .next t ∧ t.busy = false ∧ t.cmd = s.cmd
      ∧ t.upc = (prog s.cmd).length := by
  induction n generalizing s with
  | zero => cases enough
  | succ n ih =>
    obtain ⟨u, hstep⟩ := busy_step_answers busy inside
    have hcmd : u.cmd = s.cmd := (step_effect hstep).cmd_of_busy busy
    rw [runUntilIdle_succ busy hstep]
    rcases busy_step_cases busy inside hstep with ⟨idle, ended⟩ | ⟨running, inside', nearer⟩
    · exact ⟨u, runUntilIdle_of_idle idle, idle, hcmd, ended⟩
    · rw [← hcmd] at inside' nearer enough ⊢
      exact ih running inside' (by omega)

/-- Micro-operations issue one event each, whatever their reads return. -/
theorem Issues.length_eq {ops : List MicroOp} {tmp : Byte} {ev : List Event} (h : Issues ops tmp ev) :
    ev.length = ops.length := by
  induction ops generalizing tmp ev with
  | nil => cases h; rfl
  | cons m ops ih =>
    cases m with
    | w v | wor c k =>
      obtain ⟨rest, rfl, hrest⟩ := h
      exact congrArg Nat.succ (ih hrest)
    | r c =>
      obtain ⟨a, rest, rfl, hrest⟩ := h
      exact congrArg Nat.succ (ih hrest)

/-- Settles O20: the run reaches the end, and the TMC's events on it are those still to issue. -/
theorem commandEndsUnderAnySchedule : Obligations.CommandEndsUnderAnySchedule := by
  intro s busy inside
  obtain ⟨t, hrun, idle, cmd, ended⟩ := runUntilIdle_ends busy inside (Nat.lt_succ_self _)
  refine ⟨t, hrun, idle, cmd, ended, ?_⟩
  obtain ⟨ev, htrace, hissues, -⟩ := runUntilIdle_accounted hrun idle
  rw [htrace, tmcEvents_append, List.length_append, hissues.length_eq, remaining_of_busy busy,
    List.length_drop]

end Sys2Proof.Machine
end

section
/-! PROOFS of the family 70_reset_and_hazards.md: whole runs. A run at its end stays there, since an idle
TMC without an offer to come only waits (`Waited`); a run from reset without an offer is one. A busy TMC
takes only its own transactions and its completion (`RanOnly`), so a word taken away before the completion
is lost. Every other step brings the end of a run nearer (`stepsToEnd`). A host that offers commands one
after the other runs each of them as if alone (`run_offered_command`). -/

namespace Sys2Proof.Machine

/-! ### A run at its end -/

/-- From `s` to `t` the TMC did nothing, and only writes of ENV reached the registers. -/
structure Waited (s t : State) : Prop where
  ended : atEnd t = true
  doneCount : t.doneCount = s.doneCount
  cmd : t.cmd = s.cmd
  upc : t.upc = s.upc
  cfg : t.cfg = s.cfg
  history : ∃ ev, t.trace = s.trace ++ ev ∧ tmcEvents ev = [] ∧ (envWrites ev = [] → t.prf = s.prf)

theorem Waited.refl {s : State} (ended : atEnd s = true) : Waited s s :=
  ⟨ended, rfl, rfl, rfl, rfl, [], by simp, rfl, fun _ => rfl⟩

theorem envWrites_append (tr ev : List Event) : envWrites (tr ++ ev) = envWrites tr ++ envWrites ev :=
  List.filter_append ..

theorem Waited.trans {s u t : State} (first : Waited s u) (second : Waited u t) : Waited s t := by
  obtain ⟨-, hdone, hcmd, hupc, hcfg, ev, htrace, hquiet, hprf⟩ := first
  obtain ⟨hend', hdone', hcmd', hupc', hcfg', ev', htrace', hquiet', hprf'⟩ := second
  refine ⟨hend', hdone'.trans hdone, hcmd'.trans hcmd, hupc'.trans hupc, hcfg'.trans hcfg, ev ++ ev',
    by rw [htrace', htrace, List.append_assoc], by rw [tmcEvents_append, hquiet, hquiet']; rfl,
    fun hno => ?_⟩
  rw [envWrites_append, List.append_eq_nil_iff] at hno
  rw [hprf' hno.2, hprf hno.1]

/-- Where no word is offered and none is to come, that stays so. -/
theorem noOffer_of_step {s t : State} (noOffer : s.cmdValid = false)
    (noTurn : ∀ w, .hostOffer w ∉ s.sched) (h : step s = .next t) :
    t.cmdValid = false ∧ ∀ w, .hostOffer w ∉ t.sched := by
  have effect := step_effect h
  refine ⟨?_, fun w hw => noTurn w (List.mem_of_mem_tail (effect.sched ▸ hw))⟩
  cases effect with
  | tmcActs _ _ _ _ _ act =>
    cases act with
    | accepts => rfl
    | transacts _ m => simpa [microStep] using noOffer
    | completes => exact noOffer
  | hostOffers _ w next => exact absurd (next ▸ List.mem_cons_self) (noTurn w)
  | hostWithdraws => rfl
  | tmcWaits | envReads | envWrites => exact noOffer

/-- A step is answered when the sequencer is inside its program and the word on the port, if any, is valid. -/
theorem step_answers {s : State} (inside : s.busy = true → s.upc ≤ (prog s.cmd).length)
    (valid : s.cmdValid = true → ∃ i, decode s.cmdWord = .command i) : ∃ t, step s = .next t := by
  rcases step_outcomes inside with answers | ⟨why, fetched, -⟩
  · exact answers
  · obtain ⟨-, offered, invalid⟩ := fetch_eq_invalid_iff.mp fetched
    obtain ⟨i, word⟩ := valid offered
    cases invalid.symm.trans word

/-- A run at its end takes a step whichever turn is next, and the TMC does nothing in it. -/
theorem step_of_atEnd {s : State} (ended : atEnd s = true) : ∃ t, step s = .next t ∧ Waited s t := by
  obtain ⟨idle, noOffer, noTurn⟩ := (atEnd_iff s).mp ended
  have hfetch : fetch s = .nothing := fetch_of_nothing idle noOffer
  obtain ⟨t, hstep⟩ := step_answers (s := s) (by simp [idle]) (by simp [noOffer])
  refine ⟨t, hstep, ?_⟩
  have endedAt (idle' : t.busy = false) : atEnd t = true :=
    (atEnd_iff t).mpr ⟨idle', noOffer_of_step noOffer noTurn hstep⟩
  cases step_effect hstep with
  | tmcActs _ _ _ fetched => cases hfetch.symm.trans fetched
  | tmcWaits | hostOffers | hostWithdraws =>
    exact ⟨endedAt idle, rfl, rfl, rfl, rfl, [], by simp, rfl, fun _ => rfl⟩
  | envReads => exact ⟨endedAt idle, rfl, rfl, rfl, rfl, [_], rfl, rfl, fun _ => rfl⟩
  | envWrites => exact ⟨endedAt idle, rfl, rfl, rfl, rfl, [_], rfl, rfl, nofun⟩

theorem run_of_atEnd {s : State} (ended : atEnd s = true) (n : Nat) :
    ∃ t, run n s = .next t ∧ Waited s t := by
  induction n generalizing s with
  | zero => exact ⟨s, rfl, .refl ended⟩
  | succ n ih =>
    obtain ⟨u, hstep, waited⟩ := step_of_atEnd ended
    obtain ⟨t, hrun, waited'⟩ := ih waited.ended
    exact ⟨t, (run_succ hstep).trans hrun, waited.trans waited'⟩

/-- Settles O48: a run at its end waits. -/
theorem runEndIsFinal : Obligations.RunEndIsFinal := by
  refine ⟨fun s more => ?_, fun s n ended => ?_⟩
  · rcases more with busy | offered
    · simp [atEnd, busy]
    · simp [atEnd, hostHasMore, offered]
  · obtain ⟨t, hrun, hend, hdone, hcmd, hupc, hcfg, ev, htrace, hquiet, hprf⟩ := run_of_atEnd ended n
    exact ⟨t, hrun, hend, by rw [htrace, tmcEvents_append, hquiet, List.append_nil], hdone, hcmd, hupc,
      hcfg, ev, htrace, hprf⟩

/-- Settles O12: the start of a run without an offer is its end. -/
theorem noTransactionBeforeAnOffer : Obligations.NoTransactionBeforeAnOffer := by
  intro p turns n noTurn
  have ended : atEnd (startRun p turns) = true := (atEnd_iff _).mpr ⟨rfl, rfl, noTurn⟩
  obtain ⟨t, hrun, hend, -, -, -, -, ev, htrace, hquiet, hprf⟩ := run_of_atEnd ended n
  obtain ⟨idle, -, -⟩ := (atEnd_iff t).mp hend
  rw [startRun_trace, List.nil_append] at htrace
  exact ⟨t, hrun, idle, htrace ▸ hquiet, htrace ▸ hprf⟩

/-! ### Between the transactions of a command -/

/-- A busy TMC at its turn issues the next transaction of its micro-program. -/
theorem step_of_micro {s : State} {rest : List Turn} {m : MicroOp} (busy : s.busy = true)
    (hm : (prog s.cmd)[s.upc]? = some m) (next : TmcNext s rest) :
    step s = .next (microStep m { s with sched := rest }) :=
  (step_of_fetch next (fetch_of_busy busy)).trans (exec_of_micro (s := { s with sched := rest }) busy hm)

@[simp] theorem Prf.ctl_write_ctlVal (p : Prf) (c : CtlReg) (v : Byte) :
    (p.write (ctlVal c v)).ctl c = v := by
  cases c <;> rfl

theorem Prf.write_ctlVal_ctlVal (p : Prf) (c : CtlReg) (v u : Byte) :
    (p.write (ctlVal c v)).write (ctlVal c u) = p.write (ctlVal c u) :=
  p.write_write_same (by rw [ctlVal_reg, ctlVal_reg])

/-- Settles O40: ENV's write comes after the read that fills `tmp`, or before it. -/
theorem mergeWindow : Obligations.MergeWindow := by
  refine ⟨fun s c k u rest busy hread hwor next => ?lost,
    fun s c k u rest busy hread hwor next => ?merged⟩
  case lost =>
    exact ⟨_, (run_succ (step_of_micro busy hread (.inr next))).trans <|
        (run_succ (step_of_envWrite rfl)).trans (run_succ (n := 0) (step_of_micro busy hwor (.inr rfl))),
      Prf.write_ctlVal_ctlVal .., rfl⟩
  case merged =>
    have read := step_of_micro (s := regWrite .env (ctlVal c u) { s with sched := .tmc :: .tmc :: rest })
      busy hread (.inr rfl)
    refine ⟨_, (run_succ (step_of_envWrite next)).trans <|
      (run_succ read).trans (run_succ (n := 0) (step_of_micro busy hwor (.inr rfl))), ?_, rfl⟩
    simp [microStep, microOp, Prf.write_ctlVal_ctlVal]

/-- The output fields of `MODE_A` are zero (R66, R69). -/
theorem modeReg_cra_outputs_zero (m : ModeBits) :
    (modeReg Config.layout .cra m).extractLsb' 4 4 = 0 := by
  obtain ⟨low, mid, high⟩ := m
  cases low <;> cases mid <;> cases high <;> rfl

/-- The prescaler field of `MODE_B` is zero (R66, R69). -/
theorem modeReg_crb_cs_zero (m : ModeBits) : (modeReg Config.layout .crb m).extractLsb' 0 3 = 0 := by
  obtain ⟨low, mid, high⟩ := m
  cases low <;> cases mid <;> cases high <;> rfl

/-- The acceptance and the first `k` transactions of an initialisation run alone (R65). -/
theorem runCommand_init_take (m : InitMode) (ps : Prescaler) (oa ob : OutMode) (v : Word16) {s : State}
    (idle : s.busy = false) {k : Nat} (hk : k ≤ if topDest m = none then 7 else 8) :
    runCommand (k + 1) (.init m ps oa ob v) s
      = .next (transactions ((initProgram m ps oa ob v).take k) (accept (.init m ps oa ob v) s)) := by
  rw [← initProgram_length m ps oa ob v, ← prog_init] at hk
  rw [runCommand_take _ idle hk, prog_init]

/-- Settles O27: after `k` transactions the registers are those of the first `k` micro-operations. -/
theorem initIntermediateStates : Obligations.InitIntermediateStates := by
  intro m ps oa ob v s idle d a b
  have after {k : Nat} := runCommand_init_take m ps oa ob v idle (k := k)
  have hcra : a.extractLsb' 4 4 = 0 := modeReg_cra_outputs_zero (modeBits m)
  have hcrb : b.extractLsb' 0 3 = 0 := modeReg_crb_cs_zero (modeBits m)
  simp only [initProgram, csBits_layout] at after
  rcases hd : topDest m with _ | _ | _ <;> simp only [d, hd] at after ⊢
  case none =>
    exact ⟨_, _, _, _, _, _, after (k := 1) (by decide), rfl, after (k := 2) (by decide), rfl, hcra,
      after (k := 3) (by decide), rfl, hcrb, after (k := 3) (by decide), rfl, after (k := 5) (by decide), rfl,
      after (k := 7) (by decide), rfl⟩
  all_goals
    exact ⟨_, _, _, _, _, _, after (k := 1) (by decide), rfl, after (k := 2) (by decide), rfl, hcra,
      after (k := 3) (by decide), rfl, hcrb, after (k := 4) (by decide), rfl, after (k := 6) (by decide), rfl,
      after (k := 8) (by decide), rfl⟩

/-! ### A word offered while busy -/

/-- A busy TMC at `s` ran its command and no other up to `t`: it runs it still, or is idle since; `events`
counts the transactions issued and still to issue. -/
structure RanOnly (s t : State) : Prop where
  cmd : t.cmd = s.cmd
  status : (t.doneCount = s.doneCount ∧ t.busy = true)
    ∨ (t.doneCount = s.doneCount + 1 ∧ t.busy = false)
  events : (tmcEvents t.trace).length + (remaining t).length
    ≤ (tmcEvents s.trace).length + (remaining s).length

theorem RanOnly.refl {s : State} (busy : s.busy = true) : RanOnly s s :=
  ⟨rfl, .inl ⟨rfl, busy⟩, Nat.le_refl _⟩

theorem RanOnly.trans {s u t : State} (first : RanOnly s u) (busy : u.busy = true) (second : RanOnly u t) :
    RanOnly s t := by
  obtain ⟨hdone, -⟩ | ⟨-, idle⟩ := first.status
  · exact ⟨second.cmd.trans first.cmd, hdone ▸ second.status, second.events.trans first.events⟩
  · cases busy.symm.trans idle

theorem RanOnly.trans_waited {s u t : State} (first : RanOnly s u) (idle : u.busy = false)
    (waited : Waited u t) : RanOnly s t := by
  obtain ⟨hend, hdone, hcmd, -, -, ev, htrace, hquiet, -⟩ := waited
  obtain ⟨idle', -, -⟩ := (atEnd_iff t).mp hend
  obtain ⟨-, busy⟩ | ⟨hdone', -⟩ := first.status
  · cases idle.symm.trans busy
  · refine ⟨hcmd.trans first.cmd, .inr ⟨hdone.trans hdone', idle'⟩, ?_⟩
    have hevents := first.events
    rwa [htrace, tmcEvents_append, hquiet, List.append_nil, remaining_of_idle idle',
      ← remaining_of_idle idle]

theorem length_tmcEvents_microStep (m : MicroOp) (s : State) :
    (tmcEvents (microStep m s).trace).length = (tmcEvents s.trace).length + 1 := by
  rcases microOp_cases m s with ⟨c, -, heq⟩ | ⟨-, v, -, heq⟩ <;> simp [microStep, heq]

/-- Whichever agent moves, a busy TMC stays with its command. -/
theorem RanOnly.of_step {s t : State} (busy : s.busy = true) (h : step s = .next t) : RanOnly s t := by
  have effect := step_effect h
  have hcmd := effect.cmd_of_busy busy
  cases effect with
  | tmcActs rest _ i fetched _ act =>
    obtain rfl := eq_cmd_of_fetch busy fetched
    cases act with
    | accepts idle => cases busy.symm.trans idle
    | transacts _ m hm =>
      refine ⟨hcmd, .inl ⟨by simp [microStep], by simpa [microStep] using busy⟩, ?_⟩
      have hremaining : remaining s = m :: remaining (microStep m { s with sched := rest }) :=
        remaining_microStep (s := { s with sched := rest }) busy hm
      rw [hremaining, length_tmcEvents_microStep, List.length_cons]
      exact (Nat.add_right_comm _ _ _).le
    | completes =>
      refine ⟨hcmd, .inr ⟨rfl, rfl⟩, ?_⟩
      rw [remaining_of_idle rfl]
      exact Nat.add_le_add_left (Nat.zero_le _) _
  | tmcWaits _ _ fetched => cases (fetch_of_busy busy).symm.trans fetched
  | hostOffers | hostWithdraws => exact ⟨hcmd, .inl ⟨rfl, busy⟩, Nat.le_refl _⟩
  | envReads | envWrites =>
    exact ⟨hcmd, .inl ⟨rfl, busy⟩, Nat.add_le_add_right (by simp) _⟩

/-- No step takes a completion back. -/
theorem doneCount_le_of_step {s t : State} (h : step s = .next t) : s.doneCount ≤ t.doneCount := by
  cases step_effect h with
  | tmcActs _ _ _ _ _ act =>
    cases act with
    | accepts => exact Nat.le_refl _
    | transacts _ m => simp [microStep]
    | completes => exact Nat.le_succ _
  | tmcWaits | hostOffers | hostWithdraws | envReads | envWrites => exact Nat.le_refl _

theorem doneCount_le_of_run {n : Nat} {s t : State} (h : run n s = .next t) :
    s.doneCount ≤ t.doneCount := by
  induction n generalizing s with
  | zero => cases h; exact Nat.le_refl _
  | succ n ih =>
    obtain ⟨u, hstep, hrun⟩ := step_of_run_succ h
    exact (doneCount_le_of_step hstep).trans (ih hrun)

/-- As long as nothing is completed, the command that was running runs on. -/
theorem ranOnly_of_uncompleted {n : Nat} {s t : State} (busy : s.busy = true) (h : run n s = .next t)
    (uncompleted : t.doneCount = s.doneCount) : RanOnly s t ∧ t.busy = true := by
  induction n generalizing s with
  | zero => cases h; exact ⟨.refl busy, busy⟩
  | succ n ih =>
    obtain ⟨u, hstep, hrun⟩ := step_of_run_succ h
    have first := RanOnly.of_step busy hstep
    have hle := doneCount_le_of_run hrun
    obtain ⟨hdone, running⟩ | ⟨hdone, -⟩ := first.status
    · obtain ⟨second, busy'⟩ := ih running hrun (uncompleted.trans hdone.symm)
      exact ⟨first.trans running second, busy'⟩
    · omega

/-- With no word offered and none to come, a busy TMC completes its command and then waits. -/
theorem ranOnly_of_no_offer {n : Nat} {s t : State} (busy : s.busy = true) (noOffer : s.cmdValid = false)
    (noTurn : ∀ w, .hostOffer w ∉ s.sched) (h : run n s = .next t) : RanOnly s t := by
  induction n generalizing s with
  | zero => cases h; exact .refl busy
  | succ n ih =>
    obtain ⟨u, hstep, hrun⟩ := step_of_run_succ h
    have first := RanOnly.of_step busy hstep
    obtain ⟨noOffer', noTurn'⟩ := noOffer_of_step noOffer noTurn hstep
    cases running : u.busy with
    | true => exact first.trans running (ih running noOffer' noTurn' hrun)
    | false =>
      obtain ⟨t', hrun', waited⟩ := run_of_atEnd ((atEnd_iff u).mpr ⟨running, noOffer', noTurn'⟩) n
      cases hrun.symm.trans hrun'
      exact first.trans_waited running waited

/-- Settles O42: up to the withdrawal nothing is completed, and after it nothing is offered. -/
theorem offerWhileBusyWaits : Obligations.OfferWhileBusyWaits := by
  refine ⟨fun s t rest busy next h =>
    ⟨(step_effect h).cmd_of_busy busy, port_of_busy_step busy next h⟩, ?_⟩
  intro s w before after m busy hsched noTurn hrun uncompleted k t hrun'
  obtain ⟨untilWithdrawal, running⟩ := ranOnly_of_uncompleted busy hrun uncompleted
  have hnext : m.sched = .hostWithdraw :: after := by rw [run_sched hrun, hsched]; simp
  have fromWithdrawal : RanOnly m t := by
    cases k with
    | zero => cases hrun'; exact .refl running
    | succ k =>
      have withdraw := step_of_hostWithdraw hnext
      rw [run_succ withdraw] at hrun'
      exact (RanOnly.of_step running withdraw).trans running (ranOnly_of_no_offer running rfl noTurn hrun')
  obtain ⟨hcmd, hstatus, hevents⟩ := untilWithdrawal.trans running fromWithdrawal
  rw [remaining_of_busy busy, List.length_drop] at hevents
  exact ⟨hcmd, hstatus, (Nat.le_add_right _ _).trans hevents⟩

/-! ### Every run reaches its end -/

/-- Every word on the port or still to be offered is a command. -/
structure WordsValid (s : State) : Prop where
  onPort : s.cmdValid = true → ∃ i, decode s.cmdWord = .command i
  toCome : ∀ w, .hostOffer w ∈ s.sched → ∃ i, decode w = .command i

theorem WordsValid.after_step {s t : State} (words : WordsValid s) (h : step s = .next t) :
    WordsValid t := by
  have effect := step_effect h
  refine ⟨fun offered => ?_, fun w hw => words.toCome w (List.mem_of_mem_tail (effect.sched ▸ hw))⟩
  cases effect with
  | tmcActs _ _ _ _ _ act =>
    cases act with
    | accepts => cases offered
    | transacts _ m =>
      have port : s.cmdValid = true := by simpa [microStep] using offered
      simpa [microStep] using words.onPort port
    | completes => exact words.onPort offered
  | hostOffers _ w next => exact words.toCome w (next ▸ List.mem_cons_self)
  | hostWithdraws => cases offered
  | tmcWaits | envReads | envWrites => exact words.onPort offered

/-- The steps the TMC alone still takes: the rest of the running command with its completion, and at most
ten for a waiting word. -/
def tmcSteps (s : State) : Nat :=
  (if s.busy then (prog s.cmd).length - s.upc + 1 else 0) + (if s.cmdValid then 10 else 0)

/-- A bound on the steps to the end of the run; as long as turns are scheduled the nineteen steps after
them are reserved. -/
def stepsToEnd (s : State) : Nat :=
  s.sched.length + (if s.sched = [] then tmcSteps s else 19)

theorem tmcSteps_le (s : State) : tmcSteps s ≤ 19 := by
  have hlen := prog_length_le s.cmd
  unfold tmcSteps
  split <;> split <;> omega

theorem stepsToEnd_le (s : State) : stepsToEnd s ≤ s.sched.length + 19 := by
  have := tmcSteps_le s
  unfold stepsToEnd
  split <;> omega

/-- A TMC that fetches nothing is idle, and nothing is offered. -/
theorem idle_of_fetch_nothing {s : State} (fetched : fetch s = .nothing) :
    s.busy = false ∧ s.cmdValid = false := by
  unfold fetch at fetched
  split at fetched
  case isTrue => cases fetched
  case isFalse idle =>
    split at fetched
    case isTrue => split at fetched <;> cases fetched
    case isFalse noOffer => exact ⟨by simpa using idle, by simpa using noOffer⟩

/-- When the TMC alone moves and the run is not at its end, each step is one of those counted. -/
theorem tmcSteps_lt_of_step {s t : State} (alone : s.sched = []) (running : atEnd s = false)
    (h : step s = .next t) : tmcSteps t < tmcSteps s := by
  cases step_effect h with
  | tmcActs rest _ i fetched _ act =>
    cases act with
    | accepts idle =>
      have offered : s.cmdValid = true := by
        by_contra noOffer
        cases fetched.symm.trans (fetch_of_nothing idle (Bool.eq_false_of_not_eq_true noOffer))
      have hidle : s.busy = false := idle
      have hlen := prog_length_le i
      simp [tmcSteps, hidle, offered]
      omega
    | transacts busy m hm =>
      have hbusy : s.busy = true := busy
      obtain rfl := eq_cmd_of_fetch busy fetched
      have hlt : s.upc < (prog s.cmd).length := (List.getElem?_eq_some_iff.mp hm).1
      simp [tmcSteps, microStep, hbusy]
      omega
    | completes busy =>
      have hbusy : s.busy = true := busy
      simp [tmcSteps, hbusy]
  | tmcWaits _ _ fetched =>
    obtain ⟨idle, noOffer⟩ := idle_of_fetch_nothing fetched
    simp [atEnd, hostHasMore, idle, noOffer, alone] at running
  | hostOffers _ _ next | hostWithdraws _ next | envReads _ _ next | envWrites _ _ next =>
    cases alone.symm.trans next

theorem stepsToEnd_lt_of_step {s t : State} (running : atEnd s = false) (h : step s = .next t) :
    stepsToEnd t < stepsToEnd s := by
  have hsched := (step_effect h).sched
  cases alone : s.sched with
  | nil =>
    have hlt := tmcSteps_lt_of_step alone running h
    simpa [stepsToEnd, hsched, alone] using hlt
  | cons turn rest =>
    have hle := stepsToEnd_le t
    rw [hsched, alone, List.tail_cons] at hle
    have hbound : stepsToEnd s = rest.length + 1 + 19 := by simp [stepsToEnd, alone]
    omega

/-- While every offered word is valid, the steps to the end are enough to reach it. -/
theorem runToEnd_ends {p : Prf} {n : Nat} {s : State} (inv : TmcInv p s) (words : WordsValid s)
    (enough : stepsToEnd s ≤ n) : ∃ t, runToEnd n s = .next t ∧ atEnd t = true := by
  induction n generalizing s with
  | zero =>
    obtain ⟨t, hstep⟩ := step_answers inv.inProgram words.onPort
    have ended : atEnd s = true := by
      by_contra running
      have nearer := stepsToEnd_lt_of_step (Bool.eq_false_of_not_eq_true running) hstep
      omega
    exact ⟨s, rfl, ended⟩
  | succ n ih =>
    cases running : atEnd s with
    | true => exact ⟨s, runToEnd_of_atEnd running, running⟩
    | false =>
      obtain ⟨t, hstep⟩ := step_answers inv.inProgram words.onPort
      have nearer := stepsToEnd_lt_of_step running hstep
      rw [runToEnd_succ running hstep]
      exact ih (invariantKept p s t inv hstep) (words.after_step hstep) (by omega)

/-- Settles O49: every step before the end brings it nearer. -/
theorem runReachesEnd : Obligations.RunReachesEnd := by
  intro p turns valid
  exact runToEnd_ends (tmcInv_startRun p turns) ⟨nofun, valid⟩ (stepsToEnd_le (startRun p turns))

/-! ### What a command sequence did -/

/-- The registers a command run alone leaves are its end state. -/
theorem afterCommand_prf (i : Instr) (s : State) : (afterCommand i s).prf = commandEnd i s.prf := by
  rcases Instr.init_or_load i with ⟨m, ps, oa, ob, v, rfl⟩ | ⟨v, rfl⟩ | ⟨v, rfl⟩ | ⟨v, rfl⟩
  · rw [afterCommand_init_prf]
    rcases m with sm | sm <;> cases sm <;> rfl
  · exact afterCommand_load_prf .cmpa v s
  · exact afterCommand_load_prf .cmpb v s
  · exact afterCommand_load_prf .topr v s

theorem afterCommand_trace_length (i : Instr) (s : State) :
    (afterCommand i s).trace.length = s.trace.length + (prog i).length :=
  length_trace_transactions (prog i) (accept i s)

/-- A history of the TMC alone stays one through its transactions. -/
theorem tmcEvents_transactions {s : State} (h : tmcEvents s.trace = s.trace) (ops : List MicroOp) :
    tmcEvents (transactions ops s).trace = (transactions ops s).trace := by
  induction ops generalizing s with
  | nil => exact h
  | cons m ops ih =>
    refine ih ?_
    rcases microOp_cases m s with ⟨c, -, heq⟩ | ⟨-, v, -, heq⟩ <;> simp [microStep, heq, h]

theorem tmcEvents_afterCommand (i : Instr) {s : State} (h : tmcEvents s.trace = s.trace) :
    tmcEvents (afterCommand i s).trace = (afterCommand i s).trace :=
  tmcEvents_transactions (s := accept i s) h (prog i)

@[simp] theorem transactions_sched (ops : List MicroOp) (s : State) : (transactions ops s).sched = s.sched :=
  transactions_frame State.sched (by simp [microStep]) ops s

@[simp] theorem transactions_cmdValid (ops : List MicroOp) (s : State) :
    (transactions ops s).cmdValid = s.cmdValid :=
  transactions_frame State.cmdValid (by simp [microStep]) ops s

@[simp] theorem afterCommand_cmdValid (i : Instr) (s : State) : (afterCommand i s).cmdValid = false := by
  simp [afterCommand]

@[simp] theorem afterCommand_sched (i : Instr) (s : State) : (afterCommand i s).sched = s.sched := by
  simp [afterCommand]

theorem microStep_withSched (m : MicroOp) (s : State) (rest : List Turn) :
    { microStep m s with sched := rest } = microStep m { s with sched := rest } := by
  cases m <;> rfl

/-- Transactions do not read the schedule. -/
theorem transactions_withSched (ops : List MicroOp) (s : State) (rest : List Turn) :
    { transactions ops s with sched := rest } = transactions ops { s with sched := rest } := by
  induction ops generalizing s with
  | nil => rfl
  | cons m ops ih => rw [transactions, transactions, ih, microStep_withSched]

/-- At its turns a busy TMC issues the transactions that come next in its micro-program. -/
theorem run_transactions {ops after : List MicroOp} {rest : List Turn} {s : State} (busy : s.busy = true)
    (h : (prog s.cmd).drop s.upc = ops ++ after)
    (turns : s.sched = List.replicate ops.length .tmc ++ rest) :
    run ops.length s = .next (transactions ops { s with sched := rest }) := by
  induction ops generalizing s with
  | nil =>
    have hsched : { s with sched := rest } = s := by rw [← turns.trans (List.nil_append rest)]
    rw [hsched]; rfl
  | cons m ops ih =>
    have hm : (prog s.cmd)[s.upc]? = some m := by rw [← List.head?_drop, h]; rfl
    rw [List.length_cons, run_succ (step_of_micro busy hm (.inr turns)), ih, microStep_withSched]
    · rfl
    · simpa [microStep] using busy
    · simp only [microStep, advance_upc, microOp_upc, advance_cmd, microOp_cmd]
      rw [← List.tail_drop, h]; rfl
    · simp [microStep]

/-- An idle TMC at its turn accepts the command it is offered. -/
theorem step_of_offered {i : Instr} {s : State} {rest : List Turn} (idle : s.busy = false)
    (offered : s.cmdValid = true) (word : s.cmdWord = encode i) (next : TmcNext s rest) :
    step s = .next (accept i { s with sched := rest }) :=
  (step_of_fetch next (fetch_of_command idle offered (decode_eq_command_iff.mpr word))).trans
    (exec_of_idle idle)

/-- A busy TMC at its turn completes a command whose transactions are all issued. -/
theorem step_of_ended {s : State} {rest : List Turn} (busy : s.busy = true)
    (ended : s.upc = (prog s.cmd).length) (next : TmcNext s rest) :
    step s = .next (complete (family s.cmd) { s with sched := rest }) :=
  (step_of_fetch next (fetch_of_busy busy)).trans (exec_of_ended (s := { s with sched := rest }) busy ended)

/-- An idle TMC waits through its turns when nothing is offered. -/
theorem run_waits {n : Nat} {rest : List Turn} {s : State} (idle : s.busy = false)
    (noOffer : s.cmdValid = false) (turns : s.sched = List.replicate n .tmc ++ rest) :
    run n s = .next { s with sched := rest } := by
  induction n generalizing s with
  | zero =>
    have hsched : { s with sched := rest } = s := by rw [← turns.trans (List.nil_append rest)]
    rw [hsched]; rfl
  | succ n ih =>
    rw [run_succ (step_waits (.inr turns) (fetch_of_nothing idle noOffer))]
    exact ih idle noOffer rfl

/-- With all transactions issued, a TMC completes its command at its next turn and then waits. -/
theorem run_ended {d : Nat} {rest : List Turn} {s : State} (busy : s.busy = true)
    (ended : s.upc = (prog s.cmd).length) (noOffer : s.cmdValid = false)
    (turns : s.sched = .tmc :: (List.replicate d .tmc ++ rest)) :
    run (d + 1) s = .next (complete (family s.cmd) { s with sched := rest }) := by
  rw [run_succ (step_of_ended busy ended (.inr turns))]
  exact run_waits rfl noOffer rfl

/-- At its turns a TMC that has just accepted a command runs it and then waits. -/
theorem run_accepted {i : Instr} {d : Nat} {rest : List Turn} {s : State}
    (turns : s.sched = List.replicate (prog i).length .tmc ++ .tmc :: (List.replicate d .tmc ++ rest)) :
    run ((prog i).length + (d + 1)) (accept i s) = .next (afterCommand i { s with sched := rest }) := by
  have issued := run_transactions (s := accept i s) (ops := prog i) (after := []) rfl (by simp) turns
  rw [run_add issued, run_ended (d := d) (rest := rest) (by simp) (by simp) (by simp) (by simp),
    transactions_withSched, transactions_cmd]
  rfl

/-- A command offered to an idle TMC, and ten turns of the TMC: the command runs as if alone. -/
theorem run_offered_command (i : Instr) {rest : List Turn} {s : State} (idle : s.busy = false)
    (turns : s.sched = .hostOffer (encode i) :: (List.replicate 10 .tmc ++ rest)) :
    run 11 s = .next (afterCommand i (hostOffer (encode i) { s with sched := rest })) := by
  obtain ⟨d, hd⟩ := Nat.le.dest (prog_length_le i)
  have hten : List.replicate 10 Turn.tmc ++ rest
      = .tmc :: (List.replicate (prog i).length .tmc ++ .tmc :: (List.replicate d .tmc ++ rest)) := by
    rw [(by omega : 10 = 1 + (prog i).length + 1 + d)]
    simp [List.replicate_add]
  have accepted := step_of_offered (i := i)
    (s := hostOffer (encode i) { s with sched := List.replicate 10 .tmc ++ rest }) idle rfl rfl (.inr hten)
  rw [run_succ (step_of_hostOffer turns), run_succ accepted, (by omega : 9 = (prog i).length + (d + 1))]
  exact run_accepted rfl

/-- From `s` to `t` the commands `cs` were executed, one after the other and undisturbed, and the run is at
its end. -/
structure Executed (cs : List Instr) (s t : State) : Prop where
  ended : atEnd t = true
  prf : t.prf = cs.foldl (fun q i => commandEnd i q) s.prf
  doneCount : t.doneCount = s.doneCount + cs.length
  length : t.trace.length = s.trace.length + (cs.map fun i => (prog i).length).sum
  events : tmcEvents s.trace = s.trace → tmcEvents t.trace = t.trace

/-- The run of an offered command goes in front of the commands after it. -/
theorem Executed.cons {i : Instr} {cs : List Instr} {w : CmdWord} {rest : List Turn} {s t : State}
    (h : Executed cs (afterCommand i (hostOffer w { s with sched := rest })) t) : Executed (i :: cs) s t := by
  obtain ⟨ended, prf, doneCount, length, events⟩ := h
  rw [afterCommand_prf, hostOffer_prf] at prf
  rw [afterCommand_doneCount, hostOffer_doneCount] at doneCount
  rw [afterCommand_trace_length, hostOffer_trace] at length
  refine ⟨ended, prf, ?_, ?_, fun hs => events (tmcEvents_afterCommand i hs)⟩
  · exact doneCount.trans (Nat.add_right_comm ..)
  · rw [length, List.map_cons, List.sum_cons, Nat.add_assoc]

theorem run_programTurns (cs : List Instr) {s : State} (idle : s.busy = false) (noOffer : s.cmdValid = false)
    (turns : s.sched = programTurns cs) :
    ∃ t, run (programTurns cs).length s = .next t ∧ Executed cs s t := by
  induction cs generalizing s with
  | nil =>
    have ended : atEnd s = true := (atEnd_iff s).mpr ⟨idle, noOffer, by simp [turns, programTurns]⟩
    exact ⟨s, rfl, ended, rfl, rfl, rfl, id⟩
  | cons i cs ih =>
    have first := run_offered_command i idle (rest := programTurns cs) turns
    have hlen : (programTurns (i :: cs)).length = 11 + (programTurns cs).length := by
      simp [programTurns]; omega
    obtain ⟨t, hrun, executed⟩ :=
      ih (s := afterCommand i (hostOffer (encode i) { s with sched := programTurns cs })) rfl (by simp) (by simp)
    exact ⟨t, by rw [hlen, run_add first, hrun], executed.cons⟩

/-- Settles O50: each command of the sequence runs as if alone. -/
theorem commandSequenceEnd : Obligations.CommandSequenceEnd := by
  intro p cs
  obtain ⟨t, hrun, ended, hprf, hdone, hlen, hevents⟩ :=
    run_programTurns cs (s := startRun p (programTurns cs)) rfl rfl rfl
  exact ⟨t, hrun, ended, hprf, by simpa using hdone, by simpa using hlen, hevents rfl⟩

end Sys2Proof.Machine
end
